-- ==== Sys2Proof/Word.lean ====
section
/-! DEFINITION. The value types of the machine: bytes, 16-bit words, the instruction's narrower fields, and the
indexes of registers, keys and framebuffer cells (00 R9, R10; 30 R92). -/

namespace Sys2Proof

/-- An unsigned 8-bit value: a register, a timer, an immediate `nn`, a byte of memory (00 R10). -/
abbrev Byte := BitVec 8

/-- An unsigned 16-bit value: `I`, `pc`, a stack slot, an instruction word (00 R10). -/
abbrev Word := BitVec 16

/-- A four-bit field of an instruction word (30 R92). -/
abbrev Nibble := BitVec 4

/-- The twelve-bit address operand `nnn` (30 R92). -/
abbrev Addr12 := BitVec 12

/-- The number of a general register, V0 to VF (10 R32). -/
abbrev Reg := Fin 16

/-- The number of a key of the keypad (10 R50). -/
abbrev Key := Fin 16

/-- A column of the framebuffer (10 R49). -/
abbrev Col := Fin 64

/-- A row of the framebuffer (10 R49). -/
abbrev Row := Fin 32

/-- The register V0 (00 R15). -/
abbrev Reg.v0 : Reg := 0

/-- The register VF, the flag (10 R33). -/
abbrev Reg.vf : Reg := 15

end Sys2Proof
end

