-- ==== Sys2Proof/Syntax.lean ====
section
/-! DEFINITION. The instruction set: one constructor for each of the 34 rows of Table 11 of spec/30_encoding.md. -/

namespace Sys2Proof

/-- An instruction with its operands taken apart (30 R92, R94). A register field is the register's number; `nn` is a
byte, `nnn` the 12-bit address before it is widened; the row count of Dxyn is a natural number, which `wellFormed` holds
below 16. 8xy6 and 8xyE keep their unused field `y` (30 R95), so that no bit of an encoding is lost. -/
inductive Instr where
  /-- 00E0, CLS -/
  | cls
  /-- 00EE, RET -/
  | ret
  /-- 1nnn, JP nnn -/
  | jp (nnn : Addr12)
  /-- 2nnn, CALL nnn -/
  | call (nnn : Addr12)
  /-- 3xnn, SE Vx, nn -/
  | seImm (x : Reg) (nn : Byte)
  /-- 4xnn, SNE Vx, nn -/
  | sneImm (x : Reg) (nn : Byte)
  /-- 5xy0, SE Vx, Vy -/
  | seReg (x y : Reg)
  /-- 6xnn, LD Vx, nn -/
  | ldImm (x : Reg) (nn : Byte)
  /-- 7xnn, ADD Vx, nn -/
  | addImm (x : Reg) (nn : Byte)
  /-- 8xy0, LD Vx, Vy -/
  | ldReg (x y : Reg)
  /-- 8xy1, OR Vx, Vy -/
  | orReg (x y : Reg)
  /-- 8xy2, AND Vx, Vy -/
  | andReg (x y : Reg)
  /-- 8xy3, XOR Vx, Vy -/
  | xorReg (x y : Reg)
  /-- 8xy4, ADD Vx, Vy -/
  | addReg (x y : Reg)
  /-- 8xy5, SUB Vx, Vy -/
  | subReg (x y : Reg)
  /-- 8xy6, SHR Vx; `y` is decoded and unused -/
  | shr (x y : Reg)
  /-- 8xy7, SUBN Vx, Vy -/
  | subnReg (x y : Reg)
  /-- 8xyE, SHL Vx; `y` is decoded and unused -/
  | shl (x y : Reg)
  /-- 9xy0, SNE Vx, Vy -/
  | sneReg (x y : Reg)
  /-- Annn, LD I, nnn -/
  | ldI (nnn : Addr12)
  /-- Bnnn, JP V0, nnn -/
  | jpV0 (nnn : Addr12)
  /-- Cxnn, RND Vx, nn -/
  | rnd (x : Reg) (nn : Byte)
  /-- Dxyn, DRW Vx, Vy, n -/
  | drw (x y : Reg) (n : Nat)
  /-- Ex9E, SKP Vx -/
  | skp (x : Reg)
  /-- ExA1, SKNP Vx -/
  | sknp (x : Reg)
  /-- Fx07, LD Vx, DT -/
  | ldVxDt (x : Reg)
  /-- Fx0A, LD Vx, K -/
  | ldVxK (x : Reg)
  /-- Fx15, LD DT, Vx -/
  | ldDtVx (x : Reg)
  /-- Fx18, LD ST, Vx -/
  | ldStVx (x : Reg)
  /-- Fx1E, ADD I, Vx -/
  | addI (x : Reg)
  /-- Fx29, LD F, Vx -/
  | ldF (x : Reg)
  /-- Fx33, LD B, Vx -/
  | ldB (x : Reg)
  /-- Fx55, LD [I], Vx -/
  | ldMemVx (x : Reg)
  /-- Fx65, LD Vx, [I] -/
  | ldVxMem (x : Reg)
  deriving DecidableEq, Repr

end Sys2Proof
end

