-- ==== Sys2Proof/Decode.lean ====
section
/-! DEFINITION. The decoder, from bytes to an instruction or a rejection by name (30 R90 to R98, R103), and the encoder
written from the same Table 11. -/

namespace Sys2Proof

/-- Why bytes are not an instruction. -/
inductive Reject where
  /-- Fewer than the two bytes every instruction takes (30 R93). -/
  | truncated
  /-- The word matches no row of Table 11 (30 R103); a step executes it as a no-op. -/
  | undecoded (w : Word)
  deriving DecidableEq, Repr

/-- What the decoder answers for a list of bytes. -/
inductive Decoded where
  /-- The bytes begin with this instruction, and these bytes follow it. -/
  | instr (i : Instr) (rest : List Byte)
  /-- The bytes do not begin with an instruction. -/
  | rejected (why : Reject)
  deriving DecidableEq, Repr

/-- The big-endian word of two bytes, `(hi : lo)` (00 R11, 20 R63). -/
def wordOfBytes (hi lo : Byte) : Word := hi ++ lo

/-- The byte at the lower address: bits 15:8 (20 R63). -/
def hiByte (w : Word) : Byte := w.extractLsb' 8 8

/-- The byte at the higher address: bits 7:0 (20 R63). -/
def loByte (w : Word) : Byte := w.extractLsb' 0 8

/-- The field `o`, bits 15:12 (30 R92). -/
def fieldO (w : Word) : Nibble := w.extractLsb' 12 4

/-- The field `x`, bits 11:8, a register number (30 R92). -/
def fieldX (w : Word) : Reg := (w.extractLsb' 8 4).toFin

/-- The field `y`, bits 7:4, a register number (30 R92). -/
def fieldY (w : Word) : Reg := (w.extractLsb' 4 4).toFin

/-- The field `n`, bits 3:0 (30 R92). -/
def fieldN (w : Word) : Nibble := w.extractLsb' 0 4

/-- The field `nn`, bits 7:0 (30 R92). -/
def fieldNN (w : Word) : Byte := w.extractLsb' 0 8

/-- The field `nnn`, bits 11:0 (30 R92). -/
def fieldNNN (w : Word) : Addr12 := w.extractLsb' 0 12

/-- The words of major opcode 8, by the minor opcode `n` (30 R98). -/
def decodeAlu (x y : Reg) (n : Nibble) : Option Instr :=
  if n = 0x0 then some (.ldReg x y)
  else if n = 0x1 then some (.orReg x y)
  else if n = 0x2 then some (.andReg x y)
  else if n = 0x3 then some (.xorReg x y)
  else if n = 0x4 then some (.addReg x y)
  else if n = 0x5 then some (.subReg x y)
  else if n = 0x6 then some (.shr x y)
  else if n = 0x7 then some (.subnReg x y)
  else if n = 0xE then some (.shl x y)
  else none

/-- The words of major opcode E, by the minor opcode `nn` (30 R98). -/
def decodeKeySkip (x : Reg) (nn : Byte) : Option Instr :=
  if nn = 0x9E then some (.skp x)
  else if nn = 0xA1 then some (.sknp x)
  else none

/-- The words of major opcode F, by the minor opcode `nn` (30 R98). -/
def decodeMisc (x : Reg) (nn : Byte) : Option Instr :=
  if nn = 0x07 then some (.ldVxDt x)
  else if nn = 0x0A then some (.ldVxK x)
  else if nn = 0x15 then some (.ldDtVx x)
  else if nn = 0x18 then some (.ldStVx x)
  else if nn = 0x1E then some (.addI x)
  else if nn = 0x29 then some (.ldF x)
  else if nn = 0x33 then some (.ldB x)
  else if nn = 0x55 then some (.ldMemVx x)
  else if nn = 0x65 then some (.ldVxMem x)
  else none

/-- The instruction a word is, by the opcode map of 30 R98; `none` for an undecoded word (30 R103). -/
def decodeWord (w : Word) : Option Instr :=
  let o := fieldO w
  let x := fieldX w
  let y := fieldY w
  let n := fieldN w
  let nn := fieldNN w
  let nnn := fieldNNN w
  if o = 0x0 then
    if w = 0x00E0 then some .cls else if w = 0x00EE then some .ret else none
  else if o = 0x1 then some (.jp nnn)
  else if o = 0x2 then some (.call nnn)
  else if o = 0x3 then some (.seImm x nn)
  else if o = 0x4 then some (.sneImm x nn)
  else if o = 0x5 then if n = 0 then some (.seReg x y) else none
  else if o = 0x6 then some (.ldImm x nn)
  else if o = 0x7 then some (.addImm x nn)
  else if o = 0x8 then decodeAlu x y n
  else if o = 0x9 then if n = 0 then some (.sneReg x y) else none
  else if o = 0xA then some (.ldI nnn)
  else if o = 0xB then some (.jpV0 nnn)
  else if o = 0xC then some (.rnd x nn)
  else if o = 0xD then some (.drw x y n.toNat)
  else if o = 0xE then decodeKeySkip x nn
  else decodeMisc x nn

/-- The decoder: every instruction is two bytes, the high byte first (30 R93, 20 R63). -/
def decode : List Byte → Decoded
  | hi :: lo :: rest =>
    match decodeWord (wordOfBytes hi lo) with
    | some i => .instr i rest
    | none => .rejected (.undecoded (wordOfBytes hi lo))
  | [] => .rejected .truncated
  | [_] => .rejected .truncated

/-- The instruction the decoder reads from a table row's `nbits` bits `w`: the first word's bits, with zeros above
`nbits`, laid out high byte first. Every row of the table is one word, so bits past the first word are ignored. -/
def decodeTableWord (nbits w : Nat) : Option Instr :=
  let word : Word := BitVec.ofNat 16 (w % 2 ^ nbits)
  match decode [hiByte word, loByte word] with
  | .instr i _ => some i
  | .rejected _ => none

/-- A register number as the four bits of a field (30 R92). -/
def regBits (r : Reg) : Nibble := BitVec.ofFin r

/-- Format ADDR of Table 10. -/
def encodeAddr (o : Nibble) (nnn : Addr12) : Word := o ++ nnn

/-- Format XNN of Table 10. -/
def encodeXNN (o : Nibble) (x : Reg) (nn : Byte) : Word := (o ++ regBits x : BitVec 8) ++ nn

/-- Formats XY and XYN of Table 10. -/
def encodeXYN (o : Nibble) (x y : Reg) (n : Nibble) : Word :=
  (o ++ regBits x : BitVec 8) ++ (regBits y ++ n : BitVec 8)

/-- The word of an instruction, from Table 11. A row count of 16 or more, which no well-formed instruction has, keeps its
low four bits. -/
def encode : Instr → Word
  | .cls => 0x00E0
  | .ret => 0x00EE
  | .jp nnn => encodeAddr 0x1 nnn
  | .call nnn => encodeAddr 0x2 nnn
  | .seImm x nn => encodeXNN 0x3 x nn
  | .sneImm x nn => encodeXNN 0x4 x nn
  | .seReg x y => encodeXYN 0x5 x y 0x0
  | .ldImm x nn => encodeXNN 0x6 x nn
  | .addImm x nn => encodeXNN 0x7 x nn
  | .ldReg x y => encodeXYN 0x8 x y 0x0
  | .orReg x y => encodeXYN 0x8 x y 0x1
  | .andReg x y => encodeXYN 0x8 x y 0x2
  | .xorReg x y => encodeXYN 0x8 x y 0x3
  | .addReg x y => encodeXYN 0x8 x y 0x4
  | .subReg x y => encodeXYN 0x8 x y 0x5
  | .shr x y => encodeXYN 0x8 x y 0x6
  | .subnReg x y => encodeXYN 0x8 x y 0x7
  | .shl x y => encodeXYN 0x8 x y 0xE
  | .sneReg x y => encodeXYN 0x9 x y 0x0
  | .ldI nnn => encodeAddr 0xA nnn
  | .jpV0 nnn => encodeAddr 0xB nnn
  | .rnd x nn => encodeXNN 0xC x nn
  | .drw x y n => encodeXYN 0xD x y (BitVec.ofNat 4 n)
  | .skp x => encodeXNN 0xE x 0x9E
  | .sknp x => encodeXNN 0xE x 0xA1
  | .ldVxDt x => encodeXNN 0xF x 0x07
  | .ldVxK x => encodeXNN 0xF x 0x0A
  | .ldDtVx x => encodeXNN 0xF x 0x15
  | .ldStVx x => encodeXNN 0xF x 0x18
  | .addI x => encodeXNN 0xF x 0x1E
  | .ldF x => encodeXNN 0xF x 0x29
  | .ldB x => encodeXNN 0xF x 0x33
  | .ldMemVx x => encodeXNN 0xF x 0x55
  | .ldVxMem x => encodeXNN 0xF x 0x65

/-- The two bytes of an instruction, in the order they stand in memory (20 R63). -/
def encodeBytes (i : Instr) : List Byte := [hiByte (encode i), loByte (encode i)]

/-- A row of Table 11: the words `w` with `w &&& mask = pattern` (30 R96). -/
structure OpcodeRow where
  /-- the table's "match" -/
  pattern : Word
  /-- the table's "mask" -/
  mask : Word
  deriving DecidableEq, Repr

/-- A word belongs to a row. -/
def OpcodeRow.covers (r : OpcodeRow) (w : Word) : Prop := w &&& r.mask = r.pattern

/-- The row of Table 11 an instruction stands in. -/
def Instr.row : Instr → OpcodeRow
  | .cls => ⟨0x00E0, 0xFFFF⟩
  | .ret => ⟨0x00EE, 0xFFFF⟩
  | .jp _ => ⟨0x1000, 0xF000⟩
  | .call _ => ⟨0x2000, 0xF000⟩
  | .seImm _ _ => ⟨0x3000, 0xF000⟩
  | .sneImm _ _ => ⟨0x4000, 0xF000⟩
  | .seReg _ _ => ⟨0x5000, 0xF00F⟩
  | .ldImm _ _ => ⟨0x6000, 0xF000⟩
  | .addImm _ _ => ⟨0x7000, 0xF000⟩
  | .ldReg _ _ => ⟨0x8000, 0xF00F⟩
  | .orReg _ _ => ⟨0x8001, 0xF00F⟩
  | .andReg _ _ => ⟨0x8002, 0xF00F⟩
  | .xorReg _ _ => ⟨0x8003, 0xF00F⟩
  | .addReg _ _ => ⟨0x8004, 0xF00F⟩
  | .subReg _ _ => ⟨0x8005, 0xF00F⟩
  | .shr _ _ => ⟨0x8006, 0xF00F⟩
  | .subnReg _ _ => ⟨0x8007, 0xF00F⟩
  | .shl _ _ => ⟨0x800E, 0xF00F⟩
  | .sneReg _ _ => ⟨0x9000, 0xF00F⟩
  | .ldI _ => ⟨0xA000, 0xF000⟩
  | .jpV0 _ => ⟨0xB000, 0xF000⟩
  | .rnd _ _ => ⟨0xC000, 0xF000⟩
  | .drw _ _ _ => ⟨0xD000, 0xF000⟩
  | .skp _ => ⟨0xE09E, 0xF0FF⟩
  | .sknp _ => ⟨0xE0A1, 0xF0FF⟩
  | .ldVxDt _ => ⟨0xF007, 0xF0FF⟩
  | .ldVxK _ => ⟨0xF00A, 0xF0FF⟩
  | .ldDtVx _ => ⟨0xF015, 0xF0FF⟩
  | .ldStVx _ => ⟨0xF018, 0xF0FF⟩
  | .addI _ => ⟨0xF01E, 0xF0FF⟩
  | .ldF _ => ⟨0xF029, 0xF0FF⟩
  | .ldB _ => ⟨0xF033, 0xF0FF⟩
  | .ldMemVx _ => ⟨0xF055, 0xF0FF⟩
  | .ldVxMem _ => ⟨0xF065, 0xF0FF⟩

/-- Table 11 of spec/30_encoding.md, written from its own columns and independent of the decoder (30 R96). -/
def opcodeTable : List OpcodeRow :=
  [⟨0x00E0, 0xFFFF⟩, ⟨0x00EE, 0xFFFF⟩, ⟨0x1000, 0xF000⟩, ⟨0x2000, 0xF000⟩, ⟨0x3000, 0xF000⟩, ⟨0x4000, 0xF000⟩,
   ⟨0x5000, 0xF00F⟩, ⟨0x6000, 0xF000⟩, ⟨0x7000, 0xF000⟩, ⟨0x8000, 0xF00F⟩, ⟨0x8001, 0xF00F⟩,
   ⟨0x8002, 0xF00F⟩] ++
  [⟨0x8003, 0xF00F⟩, ⟨0x8004, 0xF00F⟩, ⟨0x8005, 0xF00F⟩, ⟨0x8006, 0xF00F⟩, ⟨0x8007, 0xF00F⟩, ⟨0x800E, 0xF00F⟩,
   ⟨0x9000, 0xF00F⟩, ⟨0xA000, 0xF000⟩, ⟨0xB000, 0xF000⟩, ⟨0xC000, 0xF000⟩, ⟨0xD000, 0xF000⟩] ++
  [⟨0xE09E, 0xF0FF⟩, ⟨0xE0A1, 0xF0FF⟩, ⟨0xF007, 0xF0FF⟩, ⟨0xF00A, 0xF0FF⟩, ⟨0xF015, 0xF0FF⟩, ⟨0xF018, 0xF0FF⟩,
   ⟨0xF01E, 0xF0FF⟩, ⟨0xF029, 0xF0FF⟩, ⟨0xF033, 0xF0FF⟩, ⟨0xF055, 0xF0FF⟩, ⟨0xF065, 0xF0FF⟩]

/-- The words of a row decode, with the operands `f` reads from the word, and no other words decode so. -/
def DecodesAs (pattern mask : Word) (f : Word → Instr) : Prop :=
  ∀ w : Word, w &&& mask = pattern ↔ decodeWord w = some (f w)

/-- The spaces of Table 12: the undecoded words (30 R103). -/
def undecodedSpace (w : Word) : Prop :=
  (fieldO w = 0x0 ∧ w ≠ 0x00E0 ∧ w ≠ 0x00EE) ∨
  (fieldO w = 0x5 ∧ fieldN w ≠ 0) ∨
  (fieldO w = 0x8 ∧ fieldN w ∈ [0x8, 0x9, 0xA, 0xB, 0xC, 0xD, 0xF]) ∨
  (fieldO w = 0x9 ∧ fieldN w ≠ 0) ∨
  (fieldO w = 0xE ∧ fieldNN w ∉ [0x9E, 0xA1]) ∨
  (fieldO w = 0xF ∧ fieldNN w ∉ [0x07, 0x0A, 0x15, 0x18, 0x1E, 0x29, 0x33, 0x55, 0x65])

end Sys2Proof
end

