-- ==== Sys2Proof/Config.lean ====
section
/-! DEFINITION. What the spec leaves as a parameter of the model (00 Table 2, R8), the fixed sizes (00 Table 1, R6),
and the one free value, the byte Cxnn draws (41 R145). The defaults of the parameters are values a test could show
wrong and stand in Machine/PowerOn.lean. -/

namespace Sys2Proof

/-- The parameter MEM_OOB: what a fetch, Fx33, Fx55 or Fx65 does at an address of 4096 or more (20 R66). -/
inductive MemOob where
  /-- The operation raises MemOutOfRange. -/
  | fault
  /-- The access goes to the address modulo 4096. -/
  | wrap
  deriving DecidableEq, Repr

/-- The parameter VF_DEST: what 8xy4, 8xy5, 8xy6, 8xy7 and 8xyE do with x = 15 (42 R150). -/
inductive VfDest where
  /-- The flag is written after the result and stays. -/
  | flagLast
  /-- The instruction raises VfDestRefused. -/
  | refuse
  deriving DecidableEq, Repr

/-- The parameter FONTSET: any 80 bytes (10 R45). -/
abbrev Fontset := Vector Byte 80

/-- The three parameters that are arguments of the model (00 R8). A state carries them (log entry 1, DESIGN CHOICE). -/
structure Config where
  /-- MEM_OOB -/
  memOob : MemOob
  /-- VF_DEST -/
  vfDest : VfDest
  /-- FONTSET -/
  fontset : Fontset
  deriving DecidableEq, Repr

/-- FREE VALUE (41 R145, log entry 4): the byte that the k-th execution of Cxnn draws. It has no body, so nothing can be
proved about which byte it is. -/
opaque Config.randomByte : Nat → Byte

/-- MEM_SIZE (00 R7). -/
abbrev memSize : Nat := 4096

/-- FONT_SIZE (10 R45). -/
abbrev fontSize : Nat := 80

/-- STACK_DEPTH (10 R40). -/
abbrev stackDepth : Nat := 16

/-- LOAD_ADDR (70 R407). -/
abbrev loadAddr : Nat := 0x200

end Sys2Proof
end

