-- ==== Sys2Proof/Machine/PowerOn.lean ====
section
/-! DEFINITION. The values of the power-on state that are not plain zeros (70 R400, Table 15): the fontset, the default
parameters, the reset vector, and the byte each address of memory holds at reset. -/

namespace Sys2Proof.Machine

/-- The default FONTSET, Table 6 of spec/10_state.md: glyphs 0 to F, five rows each (10 R45; UNVERIFIED, log entry 7). -/
def standardFont : Fontset :=
  ⟨#[0xF0, 0x90, 0x90, 0x90, 0xF0,
     0x20, 0x60, 0x20, 0x20, 0x70,
     0xF0, 0x10, 0xF0, 0x80, 0xF0,
     0xF0, 0x10, 0xF0, 0x10, 0xF0,
     0x90, 0x90, 0xF0, 0x10, 0x10,
     0xF0, 0x80, 0xF0, 0x10, 0xF0,
     0xF0, 0x80, 0xF0, 0x90, 0xF0,
     0xF0, 0x10, 0x20, 0x40, 0x40,
     0xF0, 0x90, 0xF0, 0x90, 0xF0,
     0xF0, 0x90, 0xF0, 0x10, 0xF0,
     0xF0, 0x90, 0xF0, 0x90, 0x90,
     0xE0, 0x90, 0xE0, 0x90, 0xE0,
     0xF0, 0x80, 0x80, 0x80, 0xF0,
     0xE0, 0x90, 0x90, 0x90, 0xE0,
     0xF0, 0x80, 0xF0, 0x80, 0xF0,
     0xF0, 0x80, 0xF0, 0x80, 0x80], by decide⟩

/-- The default configuration of 00 Table 2 (00 R8; UNVERIFIED, log entries 7 and 11). -/
def defaultConfig : Config :=
  { memOob := .fault, vfDest := .flagLast, fontset := standardFont }

/-- The reset value of `pc` (10 R35, 70 R402). -/
def resetVector : Word := 0x200

/-- The byte at an address at power-on and after reset: the fontset at 0..79, 0 elsewhere (10 R45, R47; 70 R400). This is
also what an address reads as that a memory does not list (log entry 5). -/
def powerOnByte (font : Fontset) (a : Nat) : Byte :=
  if h : a < fontSize then font[a] else 0

end Sys2Proof.Machine
end

