-- ==== Sys2Proof/Machine/State.lean ====
section
/-! DEFINITION. The state of the machine (10 R30), the model faults (60 R300), and the power-on state (70 R400). -/

namespace Sys2Proof.Machine

/-- The model faults of Table 13 of spec/60_exceptions.md (60 R300): the contents of the FAULT register, and the reason a
stopped machine answers. An instruction or a fetch records its fault in FAULT and goes to that state (60 R302); from then
on `step` and the host operations answer the fault (60 R303). -/
inductive Fault where
  /-- An access at `addr >= 4096` under MEM_OOB = `Fault`, by the fetch, Fx33, Fx55 or Fx65 of the instruction at `a`.
  Safe: the source leaves the access open, and the model stops. -/
  | memOutOfRange (addr : Nat) (a : Word)
  /-- 2nnn at `a` with SP = 16. Safe: the source calls it undefined, and the model stops. -/
  | stackOverflow (a : Word)
  /-- 00EE at `a` with SP = 0. Safe: the source calls it undefined, and the model stops. -/
  | stackUnderflow (a : Word)
  /-- Ex9E or ExA1 at `a` with Vx = k >= 16. Safe: the source does not say what happens, and the model stops. -/
  | keyIndexOutOfRange (a : Word) (k : Byte)
  /-- 8xy4, 8xy5, 8xy6, 8xy7 or 8xyE at `a` with x = 15 under VF_DEST = `Refuse`. Safe: the source is ambiguous, and the
  model stops. -/
  | vfDestRefused (a : Word)
  deriving DecidableEq, Repr

/-- The reasons `exec` could have no meaning for an instruction. -/
inductive Refusal where
  /-- Raised by an arm of `exec` whose instruction has no meaning yet; no arm raises it now. Safe. -/
  | notModelled (mnemonic : String)
  deriving DecidableEq, Repr

/-- Memory as the list of the bytes that differ from the power-on contents, addresses strictly rising (log entry 5). -/
abbrev Memory := List Host.Cell

/-- The grid of 32 rows of 64 cells, `true` meaning lit; the row comes first (10 R49). -/
abbrev Framebuffer := Vector (Vector Bool 64) 32

/-- The state of the core: the components of 10 R30, the FAULT register (10 R48), and two fields of the model's own,
`config` and `draws` (log entries 1 and 4). -/
structure State where
  /-- The parameters of the model (00 R8); no operation changes them. -/
  config : Config
  /-- `MEM[0..4095]`; what is not listed reads as `powerOnByte` (10 R30). -/
  mem : Memory
  /-- `V[0..15]` (10 R32) -/
  v : Vector Byte 16
  /-- `I` (10 R39) -/
  index : Word
  /-- `pc` (10 R35) -/
  pc : Word
  /-- `STACK[0..15]` (10 R40) -/
  stack : Vector Word 16
  /-- `SP`, 0 to 16 (10 R41) -/
  sp : Fin 17
  /-- `DT` (10 R44) -/
  dt : Byte
  /-- `ST` (10 R44) -/
  st : Byte
  /-- `FB` (10 R49) -/
  fb : Framebuffer
  /-- `KEY[0..15]`, `true` meaning pressed (10 R50) -/
  keys : Vector Bool 16
  /-- `FAULT` (10 R48) -/
  fault : Option Fault
  /-- How many bytes Cxnn has drawn: the place of the next free value (log entry 4, DESIGN CHOICE). -/
  draws : Nat
  deriving DecidableEq, Repr

/-- A framebuffer with every cell unlit. -/
def Framebuffer.clear : Framebuffer := Vector.replicate 32 (Vector.replicate 64 false)

/-- The power-on state under given parameters (70 R400, Table 15): the fontset and zeros in memory, `pc` at the reset
vector, everything else zero. `draws` is the model's own field. -/
def State.powerOn (config : Config) (draws : Nat) : State where
  config := config
  mem := []
  v := Vector.replicate 16 0
  index := 0
  pc := resetVector
  stack := Vector.replicate 16 0
  sp := 0
  dt := 0
  st := 0
  fb := Framebuffer.clear
  keys := Vector.replicate 16 false
  fault := none
  draws := draws

/-- The machine right after power-on in the default configuration (70 R400, 00 R8). -/
def State.reset : State := State.powerOn defaultConfig 0

end Sys2Proof.Machine
end

