-- ==== Sys2Proof/Machine/Ops.lean ====
section
/-! DEFINITION. The named operations over memory, the program counter, the stack, the framebuffer and the keypad, and
raising a model fault. -/

namespace Sys2Proof.Machine

/-- What an operation of the machine answers. -/
abbrev Result := Host.Outcome State Fault Refusal

/-! ### Memory as data -/

/-- The byte a memory holds at an address: the listed byte, or the power-on byte of an address that is not listed. -/
def Memory.read (font : Fontset) : Memory → Nat → Byte
  | [], a => powerOnByte font a
  | (k, b) :: rest, a => if k = a then b else Memory.read font rest a

/-- A cell put before a list, unless it says what the address reads as anyway. -/
def Memory.cons (font : Fontset) (a : Nat) (b : Byte) (rest : Memory) : Memory :=
  if b = powerOnByte font a then rest else (a, b) :: rest

/-- A memory with the byte at `a` replaced, in canonical form. -/
def Memory.write (font : Fontset) : Memory → Nat → Byte → Memory
  | [], a, b => Memory.cons font a b []
  | (k, c) :: rest, a, b =>
    if a < k then Memory.cons font a b ((k, c) :: rest)
    else if a = k then Memory.cons font a b rest
    else (k, c) :: Memory.write font rest a b

/-- The canonical form of a memory: addresses strictly rising and inside the address space (00 R7), and no byte listed
that equals what its address reads as unlisted. -/
abbrev Memory.wf (font : Fontset) (m : Memory) : Prop :=
  m.Pairwise (fun p q => p.1 < q.1) ∧ ∀ p ∈ m, p.1 < memSize ∧ p.2 ≠ powerOnByte font p.1

/-- `MEM[a]` for a physical address (00 R12). -/
def State.peek (s : State) (a : Nat) : Byte := Memory.read s.config.fontset s.mem a

/-- `MEM[a] <- b` for a physical address; there is no byte at 4096 or above (00 R7). -/
def State.poke (s : State) (a : Nat) (b : Byte) : State :=
  if a < memSize then { s with mem := Memory.write s.config.fontset s.mem a b } else s

/-! ### Memory accesses of the fetch, Fx33, Fx55 and Fx65 -/

/-- The physical address of an access that the check let pass: under `Wrap` the address modulo 4096 (20 R66). -/
def State.physical (s : State) (addr : Nat) : Nat :=
  match s.config.memOob with
  | .fault => addr
  | .wrap => addr % memSize

/-- The address check of an operation on the `count` bytes from `base`, the addresses being natural numbers that do not
wrap (20 R60): under `Fault` the lowest address of 4096 or more, if there is one (20 R66, 43 R180). -/
def State.firstOutOfRange (s : State) (base count : Nat) : Option Nat :=
  match s.config.memOob with
  | .wrap => none
  | .fault => ((List.range count).map (base + ·)).find? (fun addr => decide (memSize ≤ addr))

/-- `MemRead(addr, 1)` after the check (00 R13). -/
def State.readByte (s : State) (addr : Nat) : Byte := s.peek (s.physical addr)

/-- `MemWrite(addr, 1, b)` after the check (00 R13). -/
def State.writeByte (s : State) (addr : Nat) (b : Byte) : State := s.poke (s.physical addr) b

/-- The bytes written one by one from `base` up (20 R64). -/
def State.storeBytes : State → Nat → List Byte → State
  | s, _, [] => s
  | s, base, b :: rest => State.storeBytes (s.writeByte base b) (base + 1) rest

/-! ### The program counter -/

/-- The advance of the fetch, and the further advance of a skip: `pc <- w16(pc + 2)` (10 R37). -/
def State.advance (s : State) : State := { s with pc := s.pc + 2 }

/-- `pc <- w16(pc + 65536 - 2)`: back to the address of the instruction that is executing (10 R36, R37). -/
def State.rewind (s : State) : State := { s with pc := s.pc - 2 }

/-- The address `a` of the instruction that is executing, whose step has already advanced `pc` (10 R36). -/
def State.instrAddr (s : State) : Word := s.pc - 2

/-- The skip of a conditional instruction, which passes over the next word (40 R124, R128). -/
def State.skipIf (s : State) (c : Bool) : State := if c then s.advance else s

/-- A jump (40 R122). -/
def State.jump (s : State) (target : Word) : State := { s with pc := target }

/-! ### Faults -/

/-- FAULT written and nothing else (60 R302). -/
def State.recordFault (s : State) (f : Fault) : State := { s with fault := some f }

/-- Raising a fault in an instruction (00 R14, 60 R302, R305): FAULT is written, everything else is as it was before the
step, so `pc` is the instruction's own address again. There is no handler to go to and no return from a fault (60 R305,
R306); the next step finds the machine stopped (60 R303). -/
def State.raise (s : State) (f : Fault) : Result := .next (s.rewind.recordFault f)

/-- `go` after the address check of `count` bytes from `I`; the check comes before any write (43 R180). -/
def State.checkedAtIndex (s : State) (count : Nat) (go : State) : Result :=
  match s.firstOutOfRange s.index.toNat count with
  | some addr => s.raise (.memOutOfRange addr s.instrAddr)
  | none => .next go

/-! ### The call stack -/

/-- The stack with a return address stored at `STACK[SP]` and SP one more, or `none` when all 16 slots are taken
(40 R121). -/
def State.push (s : State) (ret : Word) : Option State :=
  if h : s.sp.val < 16 then
    some { s with stack := s.stack.set s.sp.val ret, sp := ⟨s.sp.val + 1, by omega⟩ }
  else none

/-- SP one less and the word of the slot it then points at, or `none` when the stack is empty; the slot keeps its value
(40 R120, 10 R43). -/
def State.pop (s : State) : Option (Word × State) :=
  if h : s.sp.val = 0 then none
  else some (s.stack[s.sp.val - 1], { s with sp := ⟨s.sp.val - 1, by omega⟩ })

/-! ### The framebuffer -/

/-- `FB[x][y]` (10 R49). -/
def Framebuffer.get (fb : Framebuffer) (x : Col) (y : Row) : Bool := fb[y][x]

/-- `FB[x][y] <- lit` (10 R49). -/
def Framebuffer.set (fb : Framebuffer) (x : Col) (y : Row) (lit : Bool) : Framebuffer :=
  Vector.set fb y (fb[y].set x lit)

/-- `FB[x][y]` of a state. -/
def State.cell (s : State) (x : Col) (y : Row) : Bool := Framebuffer.get s.fb x y

/-! ### The keypad -/

/-- `KEY[k] = 1` (10 R50). -/
def State.pressed (s : State) (k : Key) : Bool := s.keys[k]

/-- The pressed key of the least number, if a key is pressed (45 R214). -/
def State.lowestPressed (s : State) : Option Key := (List.finRange 16).find? (fun k => s.pressed k)

/-! ### The fetch -/

/-- The fault of a fetch at `pc`, if its two bytes are not both in memory (30 R91). -/
def State.fetchFault (s : State) : Option Fault :=
  (s.firstOutOfRange s.pc.toNat 2).map (fun addr => Fault.memOutOfRange addr s.pc)

/-- The two bytes of the instruction at `pc`, the high byte first (20 R63, 30 R90). -/
def State.fetchBytes (s : State) : List Byte := [s.readByte s.pc.toNat, s.readByte (s.pc.toNat + 1)]

/-- A word stored, high byte first, at the two addresses that a fetch at `pc` reads. -/
def State.placeWord (s : State) (hi lo : Byte) : State := s.storeBytes s.pc.toNat [hi, lo]

end Sys2Proof.Machine
end

