-- ==== Sys2Proof/Machine/Operands.lean ====
section
/-! DEFINITION. The operand forms of the instructions: registers, the widened address, the index register, register
lists, the decimal digits, the key index, the font address, and the sprite's place and bits. -/

namespace Sys2Proof.Machine

/-- `V[r]` (00 R12). -/
def State.readV (s : State) (r : Reg) : Byte := s.v[r]

/-- `V[r] <- b`; no register is hard-wired (10 R32). -/
def State.writeV (s : State) (r : Reg) (b : Byte) : State := { s with v := s.v.set r b }

/-- `I <- w` (10 R39). -/
def State.writeIndex (s : State) (w : Word) : State := { s with index := w }

/-- `zext_16(nnn)` (30 R94). -/
def addrOperand (nnn : Addr12) : Word := nnn.setWidth 16

/-- `zext_16` of a byte (00 R10). -/
def zextByte (b : Byte) : Word := b.setWidth 16

/-- V0 to Vx inclusive, in order (43 R176). -/
def State.regsThrough (s : State) (x : Reg) : List Byte := s.v.toList.take (x.val + 1)

/-- `V[k] <- MemRead(I + k, 1)` for k in 0..x, in ascending order (43 R178). -/
def State.loadRegsThrough (s : State) (x : Reg) : State :=
  (List.range (x.val + 1)).foldl
    (fun t k => t.writeV (Fin.ofNat 16 k) (s.readByte (s.index.toNat + k))) s

/-- The hundreds, tens and ones digit of a byte, in the order they are stored (43 R174; UNVERIFIED, log entry 9). -/
def bcdDigits (b : Byte) : List Byte :=
  [BitVec.ofNat 8 (b.toNat / 100), BitVec.ofNat 8 (b.toNat / 10 % 10), BitVec.ofNat 8 (b.toNat % 10)]

/-- The address of a glyph: five bytes a glyph, the whole byte counting (43 R172). -/
def fontAddress (b : Byte) : Word := BitVec.ofNat 16 (b.toNat * 5)

/-- The key a register names, if there is such a key (45 R213). -/
def keyOperand (b : Byte) : Option Key := if h : b.toNat < 16 then some ⟨b.toNat, h⟩ else none

/-- The framebuffer column `n mod 64` (44 R192, R194). -/
def colOf (n : Nat) : Col := Fin.ofNat 64 n

/-- The framebuffer row `n mod 32` (44 R192, R194). -/
def rowOf (n : Nat) : Row := Fin.ofNat 32 n

/-- The pixel of a sprite row at distance `c` from its left edge: bit 7 is leftmost (44 R191; UNVERIFIED, log entry 10). -/
def spriteBit (row : Byte) (c : Nat) : Bool := row.getLsbD (7 - c)

/-- The byte of the sprite's row `r`: `MEM[I + r]`, or nothing for a row past memory, whatever MEM_OOB is (44 R195). -/
def State.spriteRow (s : State) (r : Nat) : Option Byte :=
  if s.index.toNat + r < memSize then some (s.peek (s.index.toNat + r)) else none

/-- The free byte of this execution of Cxnn (41 R145, log entry 4). -/
def State.drawnByte (s : State) : Byte := Config.randomByte s.draws

/-- The next execution of Cxnn takes another byte. -/
def State.advanceDraws (s : State) : State := { s with draws := s.draws + 1 }

end Sys2Proof.Machine
end

