-- ==== Sys2Proof/Machine/Flags.lean ====
section
/-! DEFINITION. The flag computations: VF is the machine's only flag (10 R33, R51). Each is a function of the captured
operands (42 R151). -/

namespace Sys2Proof.Machine

/-- A flag as VF holds it: 0 or 1 (42 R151). -/
def flagByte (c : Bool) : Byte := if c then 1 else 0

/-- 8xy4: the unsigned sum exceeds 255 (42 R156). -/
def carryOut (a b : Byte) : Bool := 255 < a.toNat + b.toNat

/-- 8xy5 and 8xy7: the minuend is not below the subtrahend, so nothing was borrowed (42 R157, R159). -/
def notBorrow (minuend subtrahend : Byte) : Bool := subtrahend.toNat ≤ minuend.toNat

/-- 8xy6: the bit shifted out at the right (42 R158). -/
def outRight (b : Byte) : Bool := b.getLsbD 0

/-- 8xyE: the bit shifted out at the left (42 R160). -/
def outLeft (b : Byte) : Bool := b.getLsbD 7

/-- The end of a flag-producing member of the ALU group: the result into Vx, then the flag into VF, so that with x = 15
the flag stays; under VF_DEST = `Refuse` x = 15 raises VfDestRefused instead (42 R150, R151). -/
def State.writeWithFlag (s : State) (x : Reg) (result : Byte) (flag : Bool) : Result :=
  if x = Reg.vf ∧ s.config.vfDest = .refuse then s.raise (.vfDestRefused s.instrAddr)
  else .next ((s.writeV x result).writeV Reg.vf (flagByte flag))

end Sys2Proof.Machine
end

