-- ==== Sys2Proof/Machine/Alu.lean ====
section
/-! DEFINITION. The ALU group (spec/42_alu.md). Operands are read before anything is written (42 R151). -/

namespace Sys2Proof.Machine

/-- 8xy0, LD Vx, Vy (42 R152; UNVERIFIED, log entry 8). -/
def execLdReg (x y : Reg) (s : State) : Result := .next (s.writeV x (s.readV y))

/-- 8xy1, OR Vx, Vy (42 R153; UNVERIFIED, log entry 8). -/
def execOrReg (x y : Reg) (s : State) : Result := .next (s.writeV x (s.readV x ||| s.readV y))

/-- 8xy2, AND Vx, Vy (42 R154; UNVERIFIED, log entry 8). -/
def execAndReg (x y : Reg) (s : State) : Result := .next (s.writeV x (s.readV x &&& s.readV y))

/-- 8xy3, XOR Vx, Vy (42 R155; UNVERIFIED, log entry 8). -/
def execXorReg (x y : Reg) (s : State) : Result := .next (s.writeV x (s.readV x ^^^ s.readV y))

/-- 8xy4, ADD Vx, Vy (42 R156). -/
def execAddReg (x y : Reg) (s : State) : Result :=
  s.writeWithFlag x (s.readV x + s.readV y) (carryOut (s.readV x) (s.readV y))

/-- 8xy5, SUB Vx, Vy (42 R157). -/
def execSubReg (x y : Reg) (s : State) : Result :=
  s.writeWithFlag x (s.readV x - s.readV y) (notBorrow (s.readV x) (s.readV y))

/-- 8xy6, SHR Vx; the field `y` is not used (42 R158, 30 R95). -/
def execShr (x _y : Reg) (s : State) : Result :=
  s.writeWithFlag x (s.readV x >>> 1) (outRight (s.readV x))

/-- 8xy7, SUBN Vx, Vy (42 R159). -/
def execSubnReg (x y : Reg) (s : State) : Result :=
  s.writeWithFlag x (s.readV y - s.readV x) (notBorrow (s.readV y) (s.readV x))

/-- 8xyE, SHL Vx; the field `y` is not used (42 R160, 30 R95). -/
def execShl (x _y : Reg) (s : State) : Result :=
  s.writeWithFlag x (s.readV x <<< 1) (outLeft (s.readV x))

end Sys2Proof.Machine
end

