-- ==== Sys2Proof/Machine/ControlFlow.lean ====
section
/-! DEFINITION. Control transfer and skips (spec/40_control_flow.md). `pc` of the state is already past the
instruction (10 R36). -/

namespace Sys2Proof.Machine

/-- 00EE, RET (40 R120). -/
def execRet (s : State) : Result :=
  match s.pop with
  | none => s.raise (.stackUnderflow s.instrAddr)
  | some (ret, t) => .next (t.jump ret)

/-- 1nnn, JP nnn (40 R122). -/
def execJp (nnn : Addr12) (s : State) : Result := .next (s.jump (addrOperand nnn))

/-- 2nnn, CALL nnn: the return address is the advanced `pc` (40 R121). -/
def execCall (nnn : Addr12) (s : State) : Result :=
  match s.push s.pc with
  | none => s.raise (.stackOverflow s.instrAddr)
  | some t => .next (t.jump (addrOperand nnn))

/-- 3xnn, SE Vx, nn (40 R124). -/
def execSeImm (x : Reg) (nn : Byte) (s : State) : Result := .next (s.skipIf (s.readV x == nn))

/-- 4xnn, SNE Vx, nn (40 R125). -/
def execSneImm (x : Reg) (nn : Byte) (s : State) : Result := .next (s.skipIf (s.readV x != nn))

/-- 5xy0, SE Vx, Vy (40 R126). -/
def execSeReg (x y : Reg) (s : State) : Result := .next (s.skipIf (s.readV x == s.readV y))

/-- 9xy0, SNE Vx, Vy (40 R127). -/
def execSneReg (x y : Reg) (s : State) : Result := .next (s.skipIf (s.readV x != s.readV y))

/-- Bnnn, JP V0, nnn: the sum is not reduced to 12 bits (40 R123). -/
def execJpV0 (nnn : Addr12) (s : State) : Result :=
  .next (s.jump (addrOperand nnn + zextByte (s.readV Reg.v0)))

end Sys2Proof.Machine
end

