-- ==== Sys2Proof/Machine/Display.lean ====
section
/-! DEFINITION. Display instructions and the sprite renderer (spec/44_display.md). -/

namespace Sys2Proof.Machine

/-- 00E0, CLS (44 R190). -/
def execCls (s : State) : Result := .next { s with fb := Framebuffer.clear }

/-- One set bit of a sprite at a cell: a lit cell is cleared and counts as a collision, an unlit cell is lit (44 R193). The
pair is the framebuffer and whether a collision has occurred. -/
def drawPixel (px : Col) (py : Row) (d : Framebuffer × Bool) : Framebuffer × Bool :=
  if Framebuffer.get d.1 px py then (Framebuffer.set d.1 px py false, true)
  else (Framebuffer.set d.1 px py true, d.2)

/-- One row of a sprite, its left edge at column `x0` (44 R191, R194). -/
def drawRow (bits : Byte) (x0 : Col) (py : Row) (d : Framebuffer × Bool) : Framebuffer × Bool :=
  (List.range 8).foldl
    (fun e c => if spriteBit bits c then drawPixel (colOf (x0.val + c)) py e else e) d

/-- The sprite of `n` rows at `I`, its corner at column `x0` and row `y0`; a row past memory draws nothing (44 R192, R195).
The pair is the framebuffer after the draw and whether a collision occurred. -/
def State.drawSprite (s : State) (x0 : Col) (y0 : Row) (n : Nat) : Framebuffer × Bool :=
  (List.range n).foldl
    (fun d r =>
      match s.spriteRow r with
      | some bits => drawRow bits x0 (rowOf (y0.val + r)) d
      | none => d)
    (s.fb, false)

/-- Dxyn, DRW Vx, Vy, n: the coordinates are the registers' values before VF is written; VF is 1 exactly when a collision
occurred (44 R192, R193). Nothing in the draw reads VF, so it is written once, at the end. -/
def execDrw (x y : Reg) (n : Nat) (s : State) : Result :=
  let drawn := s.drawSprite (colOf (s.readV x).toNat) (rowOf (s.readV y).toNat) n
  .next ({ s with fb := drawn.1 }.writeV Reg.vf (flagByte drawn.2))

end Sys2Proof.Machine
end

