-- ==== Sys2Proof/Machine/IndexMemory.lean ====
section
/-! DEFINITION. Index register and memory instructions (spec/43_index_memory.md). None changes VF as a flag, and Fx33,
Fx55 and Fx65 leave `I` as it is (43 R182). -/

namespace Sys2Proof.Machine

/-- Annn, LD I, nnn (43 R170). -/
def execLdI (nnn : Addr12) (s : State) : Result := .next (s.writeIndex (addrOperand nnn))

/-- Fx1E, ADD I, Vx: modulo 2^16, and no flag (43 R171). -/
def execAddI (x : Reg) (s : State) : Result := .next (s.writeIndex (s.index + zextByte (s.readV x)))

/-- Fx29, LD F, Vx (43 R172). -/
def execLdF (x : Reg) (s : State) : Result := .next (s.writeIndex (fontAddress (s.readV x)))

/-- Fx33, LD B, Vx (43 R174). -/
def execLdB (x : Reg) (s : State) : Result :=
  s.checkedAtIndex 3 (s.storeBytes s.index.toNat (bcdDigits (s.readV x)))

/-- Fx55, LD [I], Vx (43 R176). -/
def execLdMemVx (x : Reg) (s : State) : Result :=
  s.checkedAtIndex (x.val + 1) (s.storeBytes s.index.toNat (s.regsThrough x))

/-- Fx65, LD Vx, [I] (43 R178). -/
def execLdVxMem (x : Reg) (s : State) : Result :=
  s.checkedAtIndex (x.val + 1) (s.loadRegsThrough x)

end Sys2Proof.Machine
end

