-- ==== Sys2Proof/Machine/KeypadTimers.lean ====
section
/-! DEFINITION. Keypad and timer instructions (spec/45_keypad_timers.md). -/

namespace Sys2Proof.Machine

/-- A skip on the state of the key that Vx names: `want` is the state that skips; a number of 16 or more names no key
(45 R213). -/
def State.skipOnKey (s : State) (x : Reg) (want : Bool) : Result :=
  match keyOperand (s.readV x) with
  | none => s.raise (.keyIndexOutOfRange s.instrAddr (s.readV x))
  | some k => .next (s.skipIf (s.pressed k == want))

/-- Ex9E, SKP Vx (45 R210). -/
def execSkp (x : Reg) (s : State) : Result := s.skipOnKey x true

/-- ExA1, SKNP Vx (45 R211). -/
def execSknp (x : Reg) (s : State) : Result := s.skipOnKey x false

/-- Fx07, LD Vx, DT (45 R212). -/
def execLdVxDt (x : Reg) (s : State) : Result := .next (s.writeV x s.dt)

/-- Fx0A, LD Vx, K: with no key pressed `pc` goes back, so that the next step fetches the same instruction (45 R214,
R215). -/
def execLdVxK (x : Reg) (s : State) : Result :=
  match s.lowestPressed with
  | some k => .next (s.writeV x (BitVec.ofNat 8 k.val))
  | none => .next s.rewind

/-- Fx15, LD DT, Vx (45 R216). -/
def execLdDtVx (x : Reg) (s : State) : Result := .next { s with dt := s.readV x }

/-- Fx18, LD ST, Vx (45 R217). -/
def execLdStVx (x : Reg) (s : State) : Result := .next { s with st := s.readV x }

end Sys2Proof.Machine
end

