-- ==== Sys2Proof/Machine/RegisterImmediate.lean ====
section
/-! DEFINITION. Register-immediate instructions (spec/41_register_immediate.md). -/

namespace Sys2Proof.Machine

/-- 6xnn, LD Vx, nn (41 R140). -/
def execLdImm (x : Reg) (nn : Byte) (s : State) : Result := .next (s.writeV x nn)

/-- 7xnn, ADD Vx, nn: the sum modulo 256, and no flag (41 R141). -/
def execAddImm (x : Reg) (nn : Byte) (s : State) : Result := .next (s.writeV x (s.readV x + nn))

/-- Cxnn with the draw `r` (41 R145). -/
def rndWith (r : Byte) (x : Reg) (nn : Byte) (s : State) : State := s.writeV x (r &&& nn)

/-- Cxnn, RND Vx, nn: the draw is a free value, a fresh one each time (41 R145, log entry 4). -/
def execRnd (x : Reg) (nn : Byte) (s : State) : Result :=
  .next (rndWith s.drawnByte x nn s).advanceDraws

end Sys2Proof.Machine
end

