-- ==== Sys2Proof/Machine/Step.lean ====
section
/-! DEFINITION. One fetch-decode-execute cycle (30 R90), and the placing of a word where the next fetch reads it. -/

namespace Sys2Proof.Machine

/-- One step (30 R90). A stopped machine answers its fault (60 R303); a fetch past memory records its fault and changes
nothing else (30 R91); an undecoded word only advances `pc` (30 R103); an instruction acts on the state whose `pc` is
already past it. -/
def step (s : State) : Host.Outcome State Fault Refusal :=
  match s.fault with
  | some f => .fault f
  | none =>
    match s.fetchFault with
    | some f => .next (s.recordFault f)
    | none =>
      match decode s.fetchBytes with
      | .instr i _ => exec i s.advance
      | .rejected _ => .next s.advance

/-- The state with the word of a table row (its `nbits` bits `w`, zeros above) stored where the next step fetches. -/
def State.withFetchWord (s : State) (nbits w : Nat) : State :=
  let word : Word := BitVec.ofNat 16 (w % 2 ^ nbits)
  s.placeWord (hiByte word) (loByte word)

end Sys2Proof.Machine
end

