-- ==== Sys2Proof/Machine/HostOps.lean ====
section
/-! DEFINITION. The host's operations other than `step` (60 Table 14): tick_timers, set_key, load, reset, and the two
reads. -/

namespace Sys2Proof.Machine

/-- An operation of the host that can change the state, other than `step` (60 Table 14). -/
inductive HostOp where
  /-- `tick_timers()` (60 R310) -/
  | tickTimers
  /-- `set_key(index, pressed)` (60 R313) -/
  | setKey (index : Nat) (pressed : Bool)
  /-- `load(bytes)` (70 R407) -/
  | load (bytes : List Byte)
  /-- `reset()` (70 R401) -/
  | reset
  deriving DecidableEq, Repr

/-- One less, but not below 0 (60 R310, R311). -/
def tickDown (b : Byte) : Byte := if 0 < b.toNat then b - 1 else b

/-- Both timers count down by one if positive (60 R310). -/
def State.tickTimers (s : State) : State := { s with dt := tickDown s.dt, st := tickDown s.st }

/-- One key's state; an index of 16 or more is ignored (60 R313). -/
def State.setKey (s : State) (index : Nat) (pressed : Bool) : State :=
  if h : index < 16 then { s with keys := s.keys.set index pressed } else s

/-- Bytes written one by one at physical addresses from `base` up. -/
def State.pokeBytes : State → Nat → List Byte → State
  | s, _, [] => s
  | s, base, b :: rest => State.pokeBytes (s.poke base b) (base + 1) rest

/-- The image at 0x200, or nothing at all where it does not fit (70 R407). -/
def State.loadImage (s : State) (bytes : List Byte) : State :=
  if loadAddr + bytes.length ≤ memSize then s.pokeBytes loadAddr bytes else s

/-- The power-on state under the same parameters (70 R401). The next draw stays a fresh one, for Cxnn takes a fresh draw at
every execution (41 R145, log entry 4). -/
def State.resetOp (s : State) : State := State.powerOn s.config s.draws

/-- The state a host operation makes, whether or not it is enabled. -/
def HostOp.effect (op : HostOp) (s : State) : State :=
  match op with
  | .tickTimers => s.tickTimers
  | .setKey index pressed => s.setKey index pressed
  | .load bytes => s.loadImage bytes
  | .reset => s.resetOp

/-- A host operation: on a stopped machine it is not enabled, and the machine's fault is the answer (60 R303). -/
def hostOp (op : HostOp) (s : State) : Result :=
  match s.fault with
  | some f => .fault f
  | none => .next (op.effect s)

/-- The framebuffer read, which changes nothing and is always available (60 R315). -/
def State.framebuffer (s : State) : Framebuffer := s.fb

/-- The sound signal, which changes nothing and is always available (60 R316). -/
def State.soundOn (s : State) : Bool := s.st != 0

end Sys2Proof.Machine
end

