-- ==== Sys2Proof/Safety.lean ====
section
/-! DEFINITION. The terms claims are stated in: the invariant of the machine, the host's schedules, safe runs, the end of a
run, and what one state keeps of another. -/

namespace Sys2Proof.Machine

/-- The machine's invariant: memory is in its canonical form (log entry 5). -/
abbrev State.Inv (s : State) : Prop := Memory.wf s.config.fontset s.mem

/-- An operation of the environment: a step, or another operation of the host (60 R318). -/
inductive Event where
  /-- `step()` -/
  | step
  /-- another operation -/
  | host (op : HostOp)
  deriving DecidableEq, Repr

/-- What an event does. -/
def Event.apply (e : Event) (s : State) : Result :=
  match e with
  | .step => Sys2Proof.Machine.step s
  | .host op => hostOp op s

/-- The run of a schedule, which the first fault ends (60 R318, R303). -/
def runEvents : List Event → State → Result
  | [], s => .next s
  | e :: rest, s =>
    match e.apply s with
    | .next t => runEvents rest t
    | .fault f => .fault f
    | .refused r => .refused r

/-- A run that ends well: it ends in a state with FAULT = none, and so had none throughout (60 R303). -/
def EndsWell (schedule : List Event) (s t : State) : Prop :=
  runEvents schedule s = .next t ∧ t.fault = none

/-- The end of a run for claims: the step to come fetches a jump to its own address, with FAULT = none (70 R422). -/
def State.AtEnd (s : State) : Prop :=
  ∃ nnn : Addr12, s.fault = none ∧ s.fetchFault = none ∧ decode s.fetchBytes = .instr (.jp nnn) [] ∧
    addrOperand nnn = s.pc

/-- What a fault raised by the executing instruction leaves: FAULT written, `pc` at the instruction's own address again,
everything else as it was (60 R302). -/
def raisedAt (s : State) (f : Fault) : State := { s with pc := s.pc - 2, fault := some f }

/-- The sprite of Dxyn sets the pixel at column `px` and row `py`: some bit of some of its rows that lies in memory is set
and falls there (44 R191, R192, R194, R195). -/
def SpriteSets (s : State) (x y : Reg) (n : Nat) (px : Col) (py : Row) : Prop :=
  ∃ r c : Nat, r < n ∧ c < 8 ∧ s.index.toNat + r < 4096 ∧
    ((s.readV x).toNat % 64 + c) % 64 = px.val ∧ ((s.readV y).toNat % 32 + r) % 32 = py.val ∧
    (s.peek (s.index.toNat + r)).getLsbD (7 - c) = true

/-- Every register but those listed reads the same. -/
def SameRegsBut (ws : List Reg) (s t : State) : Prop := ∀ r, r ∉ ws → t.readV r = s.readV r

/-- Every byte of memory but those at the listed addresses reads the same. -/
def SameMemoryBut (addrs : List Nat) (s t : State) : Prop := ∀ a, a ∉ addrs → t.peek a = s.peek a

/-- The stack and its pointer are the same. -/
def SameStack (s t : State) : Prop := t.stack = s.stack ∧ t.sp = s.sp

/-- The timers are the same. -/
def SameTimers (s t : State) : Prop := t.dt = s.dt ∧ t.st = s.st

/-- The keypad, the parameters and FAULT are the same: what no instruction that completes writes. -/
def SameEnvironment (s t : State) : Prop := t.keys = s.keys ∧ t.config = s.config ∧ t.fault = s.fault

/-- The frame of an instruction that writes the listed registers and `pc`. -/
def OnlyRegs (ws : List Reg) (s t : State) : Prop :=
  SameRegsBut ws s t ∧ SameMemoryBut [] s t ∧ t.index = s.index ∧ SameStack s t ∧ SameTimers s t ∧ t.fb = s.fb ∧
    SameEnvironment s t

/-- The frame of an instruction that writes the stack and `pc`. -/
def OnlyStack (s t : State) : Prop :=
  SameRegsBut [] s t ∧ SameMemoryBut [] s t ∧ t.index = s.index ∧ SameTimers s t ∧ t.fb = s.fb ∧ SameEnvironment s t

/-- The frame of an instruction that writes `I`. -/
def OnlyIndex (s t : State) : Prop :=
  SameRegsBut [] s t ∧ SameMemoryBut [] s t ∧ t.pc = s.pc ∧ SameStack s t ∧ SameTimers s t ∧ t.fb = s.fb ∧
    SameEnvironment s t

/-- The frame of an instruction that stores at the listed addresses. -/
def OnlyMemory (addrs : List Nat) (s t : State) : Prop :=
  SameRegsBut [] s t ∧ SameMemoryBut addrs s t ∧ t.index = s.index ∧ t.pc = s.pc ∧ SameStack s t ∧ SameTimers s t ∧
    t.fb = s.fb ∧ SameEnvironment s t

/-- The frame of an instruction that writes the framebuffer and the listed registers. -/
def OnlyDisplay (ws : List Reg) (s t : State) : Prop :=
  SameRegsBut ws s t ∧ SameMemoryBut [] s t ∧ t.index = s.index ∧ t.pc = s.pc ∧ SameStack s t ∧ SameTimers s t ∧
    SameEnvironment s t

/-- The frame of an instruction that sets a timer. -/
def OnlyTimers (s t : State) : Prop :=
  SameRegsBut [] s t ∧ SameMemoryBut [] s t ∧ t.index = s.index ∧ t.pc = s.pc ∧ SameStack s t ∧ t.fb = s.fb ∧
    SameEnvironment s t

end Sys2Proof.Machine
end

