-- ==== Sys2Proof/Certificates/Slice0/Obligations.lean ====
section
/-! DEFINITION. The statements about the machine, each a proposition for the provers; OBLIGATIONS.json lists them. A
statement about `exec` is about a state whose `pc` is already past the instruction, so the instruction's own address is
`pc - 2` (10 R36). -/

open Sys2Proof Sys2Proof.Machine

/-! ### Fetch, decode, encode -/

/-- 30 R90: a step on bytes that decode to an instruction is that instruction's `exec`, `pc` being advanced first; and
what decodes is well formed. -/
def Obligations.StepRunsDecodedInstruction : Prop :=
  ∀ (s : State) (i : Instr) (rest : List Byte),
    s.fault = none → s.fetchFault = none → decode s.fetchBytes = .instr i rest →
      i.wellFormed = true ∧ rest = [] ∧ step s = exec i { s with pc := s.pc + 2 }

/-- 30 R103: an undecoded word only advances `pc`. -/
def Obligations.UndecodedWordOnlyAdvancesPc : Prop :=
  (∀ w : Word, decodeWord w = none ↔ undecodedSpace w) ∧
  ∀ (s : State) (w : Word),
    s.fault = none → s.fetchFault = none → s.fetchBytes = [hiByte w, loByte w] → undecodedSpace w →
      step s = .next { s with pc := s.pc + 2 }

/-- 30 R91: under `Fault` a fetch at 4095 or above records MemOutOfRange of the lowest address past memory and changes
nothing else; under `Wrap` the bytes come from the addresses modulo 4096 and the step proceeds. -/
def Obligations.FetchPastMemory : Prop :=
  ∀ s : State, s.fault = none → 4095 ≤ s.pc.toNat →
    (s.config.memOob = .fault →
      step s = .next { s with fault := some (.memOutOfRange (max s.pc.toNat 4096) s.pc) }) ∧
    (s.config.memOob = .wrap →
      s.fetchFault = none ∧ s.fetchBytes = [s.peek (s.pc.toNat % 4096), s.peek ((s.pc.toNat + 1) % 4096)])

/-- 20 R63: below 4095 a fetch takes the two bytes at `pc` and `pc + 1`, and the first of them is the high byte of the word
that is decoded; under either policy there is no fault. -/
def Obligations.FetchIsBigEndian : Prop :=
  (∀ s : State, s.pc.toNat < 4095 →
    s.fetchFault = none ∧ s.fetchBytes = [s.peek s.pc.toNat, s.peek (s.pc.toNat + 1)]) ∧
  ∀ (hi lo : Byte) (i : Instr) (rest : List Byte), decode [hi, lo] = .instr i rest →
    ∃ w : Word, w.toNat = hi.toNat * 256 + lo.toNat ∧ decodeWord w = some i

/-- Words written out from Table 11 of spec/30_encoding.md decode to what they stand for. -/
def Obligations.SpecWordsDecode : Prop :=
  decode [0x00, 0xEE] = .instr .ret [] ∧ decode [0x22, 0x0C] = .instr (.call 0x20C) [] ∧
  decode [0x6A, 0x42] = .instr (.ldImm 10 0x42) [] ∧ decode [0x84, 0x5E] = .instr (.shl 4 5) [] ∧
  decode [0xD0, 0x15] = .instr (.drw 0 1 5) [] ∧ decode [0xE3, 0xA1] = .instr (.sknp 3) [] ∧
  decode [0xF2, 0x65] = .instr (.ldVxMem 2) [] ∧ decode [0x51, 0x21] = .rejected (.undecoded 0x5121) ∧
  decode [0x12] = .rejected .truncated

/-- Every well-formed instruction is read back from its own bytes, with every operand. -/
def Obligations.DecodeEncodeRoundTrip : Prop :=
  ∀ (i : Instr) (rest : List Byte), i.wellFormed = true → decode (encodeBytes i ++ rest) = .instr i rest

/-- Bytes that decode are the encoding of what they decode to, so no two instructions share a word. -/
def Obligations.EncodeDecodeRoundTrip : Prop :=
  ∀ (bytes rest : List Byte) (i : Instr), decode bytes = .instr i rest →
    i.wellFormed = true ∧ bytes = encodeBytes i ++ rest

/-- 30 R96: the decoder answers an instruction exactly for the words of Table 11's rows, which are 34 and pairwise
disjoint, and the instruction is one of the row that has the word. -/
def Obligations.DecoderFollowsOpcodeTable : Prop :=
  opcodeTable.length = 34 ∧
  (∀ w : Word, (decodeWord w).isSome = true ↔ ∃ r ∈ opcodeTable, r.covers w) ∧
  (∀ w : Word, ∀ r ∈ opcodeTable, ∀ r' ∈ opcodeTable, r.covers w → r'.covers w → r = r') ∧
  (∀ (w : Word) (i : Instr), decodeWord w = some i → i.row ∈ opcodeTable ∧ i.row.covers w)

/-! ### Control flow -/

/-- 40 R120. -/
def Obligations.ReturnPopsTheStack : Prop :=
  DecodesAs 0x00EE 0xFFFF (fun _ => .ret) ∧
  ∀ s : State,
    (s.sp.val ≠ 0 → ∃ t, exec .ret s = .next t ∧ t.sp.val + 1 = s.sp.val ∧
      s.stack[s.sp.val - 1]? = some t.pc ∧ t.stack = s.stack ∧ OnlyStack s t) ∧
    (s.sp.val = 0 → exec .ret s = .next (raisedAt s (.stackUnderflow (s.pc - 2))))

/-- 40 R121. -/
def Obligations.CallPushesReturnAddress : Prop :=
  DecodesAs 0x2000 0xF000 (fun w => .call (fieldNNN w)) ∧
  ∀ (nnn : Addr12) (s : State),
    (s.sp.val < 16 → ∃ t, exec (.call nnn) s = .next t ∧ t.pc.toNat = nnn.toNat ∧
      t.stack[s.sp.val]? = some s.pc ∧ t.sp.val = s.sp.val + 1 ∧
      (∀ k, k ≠ s.sp.val → t.stack[k]? = s.stack[k]?) ∧ OnlyStack s t) ∧
    (s.sp.val = 16 → exec (.call nnn) s = .next (raisedAt s (.stackOverflow (s.pc - 2))))

/-- 40 R122, R123: the two jumps; the sum of Bnnn is not reduced. -/
def Obligations.JumpsSetPc : Prop :=
  DecodesAs 0x1000 0xF000 (fun w => .jp (fieldNNN w)) ∧
  DecodesAs 0xB000 0xF000 (fun w => .jpV0 (fieldNNN w)) ∧
  ∀ (nnn : Addr12) (s : State),
    (∃ t, exec (.jp nnn) s = .next t ∧ t.pc.toNat = nnn.toNat ∧ OnlyRegs [] s t) ∧
    (∃ t, exec (.jpV0 nnn) s = .next t ∧ t.pc.toNat = nnn.toNat + (s.readV 0).toNat ∧ OnlyRegs [] s t)

/-- 40 R124 to R127: the four skips on registers. -/
def Obligations.RegisterSkips : Prop :=
  DecodesAs 0x3000 0xF000 (fun w => .seImm (fieldX w) (fieldNN w)) ∧
  DecodesAs 0x4000 0xF000 (fun w => .sneImm (fieldX w) (fieldNN w)) ∧
  DecodesAs 0x5000 0xF00F (fun w => .seReg (fieldX w) (fieldY w)) ∧
  DecodesAs 0x9000 0xF00F (fun w => .sneReg (fieldX w) (fieldY w)) ∧
  ∀ (x y : Reg) (nn : Byte) (s : State),
    (∃ t, exec (.seImm x nn) s = .next t ∧ t.pc = (if s.readV x = nn then s.pc + 2 else s.pc) ∧ OnlyRegs [] s t) ∧
    (∃ t, exec (.sneImm x nn) s = .next t ∧ t.pc = (if s.readV x = nn then s.pc else s.pc + 2) ∧ OnlyRegs [] s t) ∧
    (∃ t, exec (.seReg x y) s = .next t ∧ t.pc = (if s.readV x = s.readV y then s.pc + 2 else s.pc) ∧
      OnlyRegs [] s t) ∧
    (∃ t, exec (.sneReg x y) s = .next t ∧ t.pc = (if s.readV x = s.readV y then s.pc else s.pc + 2) ∧
      OnlyRegs [] s t)

/-- 40 R120: a call and the return that matches it restore `pc` and SP, whatever the subroutine did to anything but the
stack. -/
def Obligations.CallThenReturnRestores : Prop :=
  ∀ (nnn : Addr12) (s t u : State), s.fault = none → exec (.call nnn) s = .next t → t.fault = none →
    u.stack = t.stack → u.sp = t.sp →
      ∃ w, exec .ret u = .next w ∧ w.pc = s.pc ∧ w.sp = s.sp ∧ w.stack = u.stack ∧ OnlyStack u w

/-- 70 R422: once a step fetches a jump to its own address, every later step leaves the whole state unchanged. -/
def Obligations.SelfJumpLeavesStateUnchanged : Prop :=
  ∀ (s : State) (k : Nat), s.AtEnd → runEvents (List.replicate k .step) s = .next s

/-! ### Register-immediate -/

/-- 41 R140, R141. -/
def Obligations.ImmediateLoadAndAdd : Prop :=
  DecodesAs 0x6000 0xF000 (fun w => .ldImm (fieldX w) (fieldNN w)) ∧
  DecodesAs 0x7000 0xF000 (fun w => .addImm (fieldX w) (fieldNN w)) ∧
  ∀ (x : Reg) (nn : Byte) (s : State),
    (∃ t, exec (.ldImm x nn) s = .next t ∧ t.readV x = nn ∧ t.pc = s.pc ∧ OnlyRegs [x] s t) ∧
    (∃ t, exec (.addImm x nn) s = .next t ∧ (t.readV x).toNat = ((s.readV x).toNat + nn.toNat) % 256 ∧
      t.pc = s.pc ∧ OnlyRegs [x] s t)

/-- 41 R145: Cxnn masks the byte drawn; the byte is a free value, so this holds for every draw, and each execution takes
the next one. That the next free value stands at a counter is the model's choice (log entry 4). -/
def Obligations.RandomByteIsMasked : Prop :=
  DecodesAs 0xC000 0xF000 (fun w => .rnd (fieldX w) (fieldNN w)) ∧
  ∀ (x : Reg) (nn : Byte) (s : State),
    ∃ t, exec (.rnd x nn) s = .next t ∧ t.readV x = Config.randomByte s.draws &&& nn ∧
      t.readV x &&& ~~~nn = 0 ∧ t.draws = s.draws + 1 ∧ t.pc = s.pc ∧ OnlyRegs [x] s t

/-! ### The ALU group -/

/-- 42 R152 to R155; the spec takes these four minor opcodes from general knowledge (log entry 8). -/
def Obligations.CopyAndLogic : Prop :=
  DecodesAs 0x8000 0xF00F (fun w => .ldReg (fieldX w) (fieldY w)) ∧
  DecodesAs 0x8001 0xF00F (fun w => .orReg (fieldX w) (fieldY w)) ∧
  DecodesAs 0x8002 0xF00F (fun w => .andReg (fieldX w) (fieldY w)) ∧
  DecodesAs 0x8003 0xF00F (fun w => .xorReg (fieldX w) (fieldY w)) ∧
  ∀ (x y : Reg) (s : State),
    (∃ t, exec (.ldReg x y) s = .next t ∧ t.readV x = s.readV y ∧ t.pc = s.pc ∧ OnlyRegs [x] s t) ∧
    (∃ t, exec (.orReg x y) s = .next t ∧ t.readV x = s.readV x ||| s.readV y ∧ t.pc = s.pc ∧ OnlyRegs [x] s t) ∧
    (∃ t, exec (.andReg x y) s = .next t ∧ t.readV x = s.readV x &&& s.readV y ∧ t.pc = s.pc ∧ OnlyRegs [x] s t) ∧
    (∃ t, exec (.xorReg x y) s = .next t ∧ t.readV x = s.readV x ^^^ s.readV y ∧ t.pc = s.pc ∧ OnlyRegs [x] s t)

/-- 42 R156, with R150 for x = 15: the sum, and VF = 1 exactly when it exceeds 255. -/
def Obligations.AddSetsCarry : Prop :=
  DecodesAs 0x8004 0xF00F (fun w => .addReg (fieldX w) (fieldY w)) ∧
  ∀ (x y : Reg) (s : State),
    (¬(x = 15 ∧ s.config.vfDest = .refuse) → ∃ t, exec (.addReg x y) s = .next t ∧
      (x ≠ 15 → (t.readV x).toNat = ((s.readV x).toNat + (s.readV y).toNat) % 256) ∧
      (t.readV 15).toNat = (if 255 < (s.readV x).toNat + (s.readV y).toNat then 1 else 0) ∧
      t.pc = s.pc ∧ OnlyRegs [x, 15] s t) ∧
    (x = 15 ∧ s.config.vfDest = .refuse →
      exec (.addReg x y) s = .next (raisedAt s (.vfDestRefused (s.pc - 2))))

/-- 42 R157, R159: both subtractions, and VF = 1 exactly when nothing is borrowed. -/
def Obligations.SubtractSetsNotBorrow : Prop :=
  DecodesAs 0x8005 0xF00F (fun w => .subReg (fieldX w) (fieldY w)) ∧
  DecodesAs 0x8007 0xF00F (fun w => .subnReg (fieldX w) (fieldY w)) ∧
  ∀ (x y : Reg) (s : State),
    (¬(x = 15 ∧ s.config.vfDest = .refuse) →
      (∃ t, exec (.subReg x y) s = .next t ∧
        (x ≠ 15 → (t.readV x).toNat = ((s.readV x).toNat + 256 - (s.readV y).toNat) % 256) ∧
        (t.readV 15).toNat = (if (s.readV y).toNat ≤ (s.readV x).toNat then 1 else 0) ∧
        t.pc = s.pc ∧ OnlyRegs [x, 15] s t) ∧
      (∃ t, exec (.subnReg x y) s = .next t ∧
        (x ≠ 15 → (t.readV x).toNat = ((s.readV y).toNat + 256 - (s.readV x).toNat) % 256) ∧
        (t.readV 15).toNat = (if (s.readV x).toNat ≤ (s.readV y).toNat then 1 else 0) ∧
        t.pc = s.pc ∧ OnlyRegs [x, 15] s t)) ∧
    (x = 15 ∧ s.config.vfDest = .refuse →
      exec (.subReg x y) s = .next (raisedAt s (.vfDestRefused (s.pc - 2))) ∧
      exec (.subnReg x y) s = .next (raisedAt s (.vfDestRefused (s.pc - 2))))

/-- 42 R158, R160: both shifts by one, and VF = the bit shifted out; the field y does not matter. -/
def Obligations.ShiftsSetBitOut : Prop :=
  DecodesAs 0x8006 0xF00F (fun w => .shr (fieldX w) (fieldY w)) ∧
  DecodesAs 0x800E 0xF00F (fun w => .shl (fieldX w) (fieldY w)) ∧
  ∀ (x y : Reg) (s : State),
    (¬(x = 15 ∧ s.config.vfDest = .refuse) →
      (∃ t, exec (.shr x y) s = .next t ∧
        (x ≠ 15 → (t.readV x).toNat = (s.readV x).toNat / 2) ∧
        (t.readV 15).toNat = (s.readV x).toNat % 2 ∧ t.pc = s.pc ∧ OnlyRegs [x, 15] s t) ∧
      (∃ t, exec (.shl x y) s = .next t ∧
        (x ≠ 15 → (t.readV x).toNat = (s.readV x).toNat * 2 % 256) ∧
        (t.readV 15).toNat = (s.readV x).toNat / 128 ∧ t.pc = s.pc ∧ OnlyRegs [x, 15] s t)) ∧
    (x = 15 ∧ s.config.vfDest = .refuse →
      exec (.shr x y) s = .next (raisedAt s (.vfDestRefused (s.pc - 2))) ∧
      exec (.shl x y) s = .next (raisedAt s (.vfDestRefused (s.pc - 2))))

/-- 42 R150: with x = 15 the flag stays in VF under `FlagLast`, and under `Refuse` the instruction changes nothing but
FAULT. -/
def Obligations.VfAsDestinationOfFlagProducers : Prop :=
  ∀ (y : Reg) (s : State),
    (s.config.vfDest = .flagLast →
      (∃ t, exec (.addReg 15 y) s = .next t ∧
        (t.readV 15).toNat = (if 255 < (s.readV 15).toNat + (s.readV y).toNat then 1 else 0) ∧
          t.pc = s.pc ∧ OnlyRegs [15] s t) ∧
      (∃ t, exec (.subReg 15 y) s = .next t ∧
        (t.readV 15).toNat = (if (s.readV y).toNat ≤ (s.readV 15).toNat then 1 else 0) ∧
          t.pc = s.pc ∧ OnlyRegs [15] s t) ∧
      (∃ t, exec (.shr 15 y) s = .next t ∧ (t.readV 15).toNat = (s.readV 15).toNat % 2 ∧
          t.pc = s.pc ∧ OnlyRegs [15] s t) ∧
      (∃ t, exec (.subnReg 15 y) s = .next t ∧
        (t.readV 15).toNat = (if (s.readV 15).toNat ≤ (s.readV y).toNat then 1 else 0) ∧
          t.pc = s.pc ∧ OnlyRegs [15] s t) ∧
      (∃ t, exec (.shl 15 y) s = .next t ∧ (t.readV 15).toNat = (s.readV 15).toNat / 128 ∧
          t.pc = s.pc ∧ OnlyRegs [15] s t)) ∧
    (s.config.vfDest = .refuse →
      ∀ i ∈ [Instr.addReg 15 y, Instr.subReg 15 y, Instr.shr 15 y, Instr.subnReg 15 y, Instr.shl 15 y],
        exec i s = .next (raisedAt s (.vfDestRefused (s.pc - 2))))

/-! ### Index register and memory -/

/-- 43 R170, R171, R172. -/
def Obligations.IndexRegisterWrites : Prop :=
  DecodesAs 0xA000 0xF000 (fun w => .ldI (fieldNNN w)) ∧
  DecodesAs 0xF01E 0xF0FF (fun w => .addI (fieldX w)) ∧
  DecodesAs 0xF029 0xF0FF (fun w => .ldF (fieldX w)) ∧
  ∀ (nnn : Addr12) (x : Reg) (s : State),
    (∃ t, exec (.ldI nnn) s = .next t ∧ t.index.toNat = nnn.toNat ∧ OnlyIndex s t) ∧
    (∃ t, exec (.addI x) s = .next t ∧ t.index.toNat = (s.index.toNat + (s.readV x).toNat) % 65536 ∧ OnlyIndex s t) ∧
    (∃ t, exec (.ldF x) s = .next t ∧ t.index.toNat = (s.readV x).toNat * 5 ∧ OnlyIndex s t)

/-- 43 R174: the three digits, hundreds at the lowest address; an address past memory under `Fault` stores nothing.
The order of the digits is the spec's from general knowledge (log entry 9). -/
def Obligations.BcdStoresThreeDigits : Prop :=
  DecodesAs 0xF033 0xF0FF (fun w => .ldB (fieldX w)) ∧
  ∀ (x : Reg) (s : State), s.Inv →
    (s.config.memOob = .wrap ∨ s.index.toNat + 2 < 4096 → ∃ t, exec (.ldB x) s = .next t ∧
      (t.peek (s.physical s.index.toNat)).toNat = (s.readV x).toNat / 100 ∧
      (t.peek (s.physical (s.index.toNat + 1))).toNat = (s.readV x).toNat / 10 % 10 ∧
      (t.peek (s.physical (s.index.toNat + 2))).toNat = (s.readV x).toNat % 10 ∧
      OnlyMemory [s.physical s.index.toNat, s.physical (s.index.toNat + 1), s.physical (s.index.toNat + 2)] s t) ∧
    (s.config.memOob = .fault ∧ 4096 ≤ s.index.toNat + 2 →
      exec (.ldB x) s = .next (raisedAt s (.memOutOfRange (max s.index.toNat 4096) (s.pc - 2))))

/-- 43 R176. -/
def Obligations.StoreRegistersThroughVx : Prop :=
  DecodesAs 0xF055 0xF0FF (fun w => .ldMemVx (fieldX w)) ∧
  ∀ (x : Reg) (s : State), s.Inv →
    (s.config.memOob = .wrap ∨ s.index.toNat + x.val < 4096 → ∃ t, exec (.ldMemVx x) s = .next t ∧
      (∀ k : Reg, k ≤ x → t.peek (s.physical (s.index.toNat + k.val)) = s.readV k) ∧
      OnlyMemory ((List.range (x.val + 1)).map (fun k => s.physical (s.index.toNat + k))) s t) ∧
    (s.config.memOob = .fault ∧ 4096 ≤ s.index.toNat + x.val →
      exec (.ldMemVx x) s = .next (raisedAt s (.memOutOfRange (max s.index.toNat 4096) (s.pc - 2))))

/-- 43 R178. -/
def Obligations.LoadRegistersThroughVx : Prop :=
  DecodesAs 0xF065 0xF0FF (fun w => .ldVxMem (fieldX w)) ∧
  ∀ (x : Reg) (s : State),
    (s.config.memOob = .wrap ∨ s.index.toNat + x.val < 4096 → ∃ t, exec (.ldVxMem x) s = .next t ∧
      (∀ k : Reg, k ≤ x → t.readV k = s.peek (s.physical (s.index.toNat + k.val))) ∧
      t.pc = s.pc ∧ OnlyRegs ((List.finRange 16).filter (fun k => decide (k ≤ x))) s t) ∧
    (s.config.memOob = .fault ∧ 4096 ≤ s.index.toNat + x.val →
      exec (.ldVxMem x) s = .next (raisedAt s (.memOutOfRange (max s.index.toNat 4096) (s.pc - 2))))

/-- 20 R66: where the accesses of Fx33, Fx55 and Fx65 go: the address itself below 4096, and under `Wrap` the address
modulo 4096. -/
def Obligations.AccessGoesToPhysicalAddress : Prop :=
  ∀ (s : State) (addr : Nat),
    (addr < 4096 → s.physical addr = addr) ∧ (s.config.memOob = .wrap → s.physical addr = addr % 4096)

/-- 20 R74: registers that Fx55 stores are what a later fetch at their address reads. -/
def Obligations.StoreIsSeenByLaterFetch : Prop :=
  ∀ (x : Reg) (s t u : State), s.Inv → s.fault = none → 1 ≤ x.val → exec (.ldMemVx x) s = .next t → t.fault = none →
    u.mem = t.mem → u.config = t.config → u.pc = s.index →
      u.fetchFault = none ∧ u.fetchBytes = [s.readV 0, s.readV 1]

/-! ### Display -/

/-- 44 R190. -/
def Obligations.ClearUnlightsEveryCell : Prop :=
  DecodesAs 0x00E0 0xFFFF (fun _ => .cls) ∧
  ∀ s : State, ∃ t, exec .cls s = .next t ∧ (∀ px py, t.cell px py = false) ∧ OnlyDisplay [] s t

/-- 44 R192: the loop of Dxyn is, cell by cell, the exclusive or with the sprite, and VF is 1 exactly when a set pixel of
the sprite met a lit cell. That bit 7 is leftmost is the spec's from general knowledge (log entry 10). -/
def Obligations.DrawXorsTheSprite : Prop :=
  DecodesAs 0xD000 0xF000 (fun w => .drw (fieldX w) (fieldY w) (fieldN w).toNat) ∧
  ∀ (x y : Reg) (n : Nat) (s : State), n < 16 →
    ∃ t, exec (.drw x y n) s = .next t ∧
      (∀ px py, t.cell px py = true ↔ ¬(s.cell px py = true ↔ SpriteSets s x y n px py)) ∧
      ((∃ px py, SpriteSets s x y n px py ∧ s.cell px py = true) → t.readV 15 = 1) ∧
      ((¬∃ px py, SpriteSets s x y n px py ∧ s.cell px py = true) → t.readV 15 = 0) ∧
      OnlyDisplay [15] s t

/-- Two equal draws, read from the pseudocode of 44 R192: the second restores every cell, as 44 R193 says, and reports a
collision exactly when it meets a cell that the first one lit. That second clause is the model's reading of R192 (log
entry 14, DEDUCED); R193's own derived sentence leaves out the condition on the cells. -/
def Obligations.DrawTwiceRestores : Prop :=
  ∀ (x y : Reg) (n : Nat) (s t u w : State), n < 16 → exec (.drw x y n) s = .next t →
    u.fb = t.fb → u.mem = s.mem → u.config = s.config → u.index = s.index →
    (u.readV x).toNat % 64 = (s.readV x).toNat % 64 → (u.readV y).toNat % 32 = (s.readV y).toNat % 32 →
    exec (.drw x y n) u = .next w →
      (∀ px py, w.cell px py = s.cell px py) ∧
      (w.readV 15 = 1 ↔ ∃ px py, SpriteSets s x y n px py ∧ s.cell px py = false)

/-- 44 R195: rows past memory draw nothing and raise nothing, under either policy: the draw completes and is that of the
rows inside memory. -/
def Obligations.RowsPastMemoryDrawNothing : Prop :=
  ∀ (x y : Reg) (n : Nat) (s : State),
    ∃ t, exec (.drw x y n) s = .next t ∧ t.fault = s.fault ∧
      exec (.drw x y (min n (4096 - s.index.toNat))) s = .next t

/-- 44 R196: no rows: VF is 0 and the framebuffer is unchanged. -/
def Obligations.DrawOfNoRows : Prop :=
  ∀ (x y : Reg) (s : State), ∃ t, exec (.drw x y 0) s = .next t ∧ t.readV 15 = 0 ∧ t.fb = s.fb ∧ OnlyDisplay [15] s t

/-! ### Keypad and timers -/

/-- 45 R210, R211, R213. -/
def Obligations.KeySkips : Prop :=
  DecodesAs 0xE09E 0xF0FF (fun w => .skp (fieldX w)) ∧
  DecodesAs 0xE0A1 0xF0FF (fun w => .sknp (fieldX w)) ∧
  ∀ (x : Reg) (s : State),
    (∀ k : Key, (s.readV x).toNat = k.val →
      (∃ t, exec (.skp x) s = .next t ∧ t.pc = (if s.pressed k = true then s.pc + 2 else s.pc) ∧ OnlyRegs [] s t) ∧
      (∃ t, exec (.sknp x) s = .next t ∧ t.pc = (if s.pressed k = true then s.pc else s.pc + 2) ∧ OnlyRegs [] s t)) ∧
    (16 ≤ (s.readV x).toNat →
      exec (.skp x) s = .next (raisedAt s (.keyIndexOutOfRange (s.pc - 2) (s.readV x))) ∧
      exec (.sknp x) s = .next (raisedAt s (.keyIndexOutOfRange (s.pc - 2) (s.readV x))))

/-- 45 R214. -/
def Obligations.KeyWaitTakesLowestKey : Prop :=
  DecodesAs 0xF00A 0xF0FF (fun w => .ldVxK (fieldX w)) ∧
  ∀ (x : Reg) (s : State),
    (∀ k : Key, s.pressed k = true → (∀ j, j < k → s.pressed j = false) →
      ∃ t, exec (.ldVxK x) s = .next t ∧ (t.readV x).toNat = k.val ∧ t.pc = s.pc ∧ OnlyRegs [x] s t) ∧
    ((∀ k, s.pressed k = false) →
      ∃ t, exec (.ldVxK x) s = .next t ∧ t.pc = s.pc - 2 ∧ OnlyRegs [] s t)

/-- 45 R214, R215: with no key pressed any number of steps leave the whole state unchanged; once the host presses a key,
one step stores it and goes on. -/
def Obligations.KeyWaitSpinsUntilPressed : Prop :=
  ∀ (x : Reg) (s : State) (n : Nat) (k : Key), s.fault = none → s.fetchFault = none →
    decode s.fetchBytes = .instr (.ldVxK x) [] → (∀ j, s.pressed j = false) →
      runEvents (List.replicate n .step) s = .next s ∧
      ∃ t, runEvents (List.replicate n .step ++ [.host (.setKey k.val true), .step]) s = .next t ∧
        (t.readV x).toNat = k.val ∧ t.pc = s.pc + 2 ∧ t.fault = none

/-- 45 R212, R216, R217. -/
def Obligations.TimerRegisterMoves : Prop :=
  DecodesAs 0xF007 0xF0FF (fun w => .ldVxDt (fieldX w)) ∧
  DecodesAs 0xF015 0xF0FF (fun w => .ldDtVx (fieldX w)) ∧
  DecodesAs 0xF018 0xF0FF (fun w => .ldStVx (fieldX w)) ∧
  ∀ (x : Reg) (s : State),
    (∃ t, exec (.ldVxDt x) s = .next t ∧ t.readV x = s.dt ∧ t.pc = s.pc ∧ OnlyRegs [x] s t) ∧
    (∃ t, exec (.ldDtVx x) s = .next t ∧ t.dt = s.readV x ∧ t.st = s.st ∧ OnlyTimers s t) ∧
    (∃ t, exec (.ldStVx x) s = .next t ∧ t.st = s.readV x ∧ t.dt = s.dt ∧ OnlyTimers s t ∧
      (t.soundOn = true ↔ (s.readV x).toNat ≠ 0))

/-! ### Host operations -/

/-- 60 R310: one saturating decrement of both timers, and nothing else. -/
def Obligations.TickCountsBothTimersDown : Prop :=
  ∀ s : State, s.fault = none →
    ∃ t, hostOp .tickTimers s = .next t ∧ t.dt.toNat = s.dt.toNat - 1 ∧ t.st.toNat = s.st.toNat - 1 ∧
      { t with dt := s.dt, st := s.st } = s

/-- 60 R313: one key, or nothing for an index of 16 or more. -/
def Obligations.SetKeySetsOneKey : Prop :=
  ∀ (s : State) (index : Nat) (pressed : Bool), s.fault = none →
    (index < 16 → ∃ t, hostOp (.setKey index pressed) s = .next t ∧ t.keys[index]? = some pressed ∧
      (∀ k, k ≠ index → t.keys[k]? = s.keys[k]?) ∧ { t with keys := s.keys } = s) ∧
    (16 ≤ index → hostOp (.setKey index pressed) s = .next s)

/-- 70 R407: the whole image at 0x200 and no other change, or no change at all where it does not fit. -/
def Obligations.LoadCopiesImageOrNothing : Prop :=
  ∀ (s : State) (bytes : List Byte), s.Inv → s.fault = none →
    (0x200 + bytes.length ≤ 4096 → ∃ t, hostOp (.load bytes) s = .next t ∧
      (∀ k, k < bytes.length → bytes[k]? = some (t.peek (0x200 + k))) ∧
      (∀ a, (a < 0x200 ∨ 0x200 + bytes.length ≤ a) → t.peek a = s.peek a) ∧ { t with mem := s.mem } = s) ∧
    (4096 < 0x200 + bytes.length → hostOp (.load bytes) s = .next s)

/-- The power-on state of 70 R400, under any parameters, is what construction and `reset` give. That the counter of draws
starts at 0 and goes on over `reset` is the model's choice (log entry 4), and so is that the state carries the parameters
(log entry 1). -/
def Obligations.PowerOnState : Prop :=
  State.reset = State.powerOn defaultConfig 0 ∧
  (∀ s : State, s.fault = none → hostOp .reset s = .next (State.powerOn s.config s.draws)) ∧
  ∀ (config : Config) (draws : Nat) (s : State), s = State.powerOn config draws →
    (∀ a : Fin 80, s.peek a.val = config.fontset[a.val]) ∧ (∀ a, 80 ≤ a → s.peek a = 0) ∧
    (∀ r, s.readV r = 0) ∧ s.index = 0 ∧ s.pc = 0x200 ∧ (∀ k : Fin 16, s.stack[k.val] = 0) ∧ s.sp = 0 ∧
    s.dt = 0 ∧ s.st = 0 ∧ (∀ px py, s.cell px py = false) ∧ (∀ k, s.pressed k = false) ∧ s.fault = none

/-- 70 R401: reset gives the power-on state of the same parameters from any state that is not stopped. That the counter of
draws, which is no state of the hardware, goes on is the model's choice (log entry 4). -/
def Obligations.ResetGivesPowerOnState : Prop :=
  ∀ s : State, s.fault = none →
    ∃ t, hostOp .reset s = .next t ∧ t.config = s.config ∧
      (∀ a : Fin 80, t.peek a.val = s.config.fontset[a.val]) ∧ (∀ a, 80 ≤ a → t.peek a = 0) ∧
      (∀ r, t.readV r = 0) ∧ t.index = 0 ∧ t.pc = 0x200 ∧ (∀ k : Fin 16, t.stack[k.val] = 0) ∧ t.sp = 0 ∧
      t.dt = 0 ∧ t.st = 0 ∧ (∀ px py, t.cell px py = false) ∧ (∀ k, t.pressed k = false) ∧ t.fault = none ∧
      { t with draws := 0 } = State.powerOn s.config 0

/-- 70 R402, R409: after power-on and a load, the first step runs the image's first instruction. -/
def Obligations.FirstStepRunsFirstLoadedWord : Prop :=
  ∀ (config : Config) (draws : Nat) (hi lo : Byte) (rest : List Byte) (i : Instr),
    rest.length ≤ 3582 → decode [hi, lo] = .instr i [] →
      ∃ u, runEvents [.host (.load (hi :: lo :: rest))] (State.powerOn config draws) = .next u ∧
        u.pc = 0x200 ∧ step u = exec i { u with pc := 0x202 }

/-- 60 R316, R315: the sound signal is on exactly while ST is not 0, in any state, faulted or not, and the framebuffer
read gives FB. -/
def Obligations.OutputsFollowState : Prop :=
  ∀ s : State, (s.soundOn = true ↔ s.st.toNat ≠ 0) ∧ ∀ px py, Framebuffer.get s.framebuffer px py = s.cell px py

/-! ### Faults -/

/-- 60 R303, 10 R48: a stopped machine's step and host operations are not enabled. That each answers the fault recorded is
the model's choice (log entry 2). -/
def Obligations.FaultedMachineStops : Prop :=
  ∀ (s : State) (f : Fault) (e : Event), s.fault = some f → e.apply s = .fault f

/-- 60 R302: a step that records a fault writes nothing else; `pc` still holds the instruction's address. -/
def Obligations.FaultsArePrecise : Prop :=
  (∀ (s t : State) (f : Fault), s.fault = none → step s = .next t → t.fault = some f → t = { s with fault := some f }) ∧
  ∀ (i : Instr) (s t : State) (f : Fault), s.fault = none → exec i s = .next t → t.fault = some f → t = raisedAt s f

/-- 60 R300, R301: what an instruction can raise, and when: Table 13, and nothing else faults. -/
def Obligations.OnlyTable13Faults : Prop :=
  ∀ (i : Instr) (s t : State) (f : Fault), s.fault = none → exec i s = .next t → t.fault = some f →
    (∃ x : Reg, ((i = .ldB x ∧ 4096 ≤ s.index.toNat + 2) ∨
        ((i = .ldMemVx x ∨ i = .ldVxMem x) ∧ 4096 ≤ s.index.toNat + x.val)) ∧
      s.config.memOob = .fault ∧ f = .memOutOfRange (max s.index.toNat 4096) (s.pc - 2)) ∨
    (∃ nnn, i = .call nnn ∧ s.sp.val = 16 ∧ f = .stackOverflow (s.pc - 2)) ∨
    (i = .ret ∧ s.sp.val = 0 ∧ f = .stackUnderflow (s.pc - 2)) ∨
    (∃ x, (i = .skp x ∨ i = .sknp x) ∧ 16 ≤ (s.readV x).toNat ∧
      f = .keyIndexOutOfRange (s.pc - 2) (s.readV x)) ∨
    (∃ y, i ∈ [Instr.addReg 15 y, Instr.subReg 15 y, Instr.shr 15 y, Instr.subnReg 15 y, Instr.shl 15 y] ∧
      s.config.vfDest = .refuse ∧ f = .vfDestRefused (s.pc - 2))

/-- 30 R90: a step of a machine that is not stopped always returns a state, and so does every instruction. -/
def Obligations.StepAlwaysReturns : Prop :=
  (∀ s : State, s.fault = none → ∃ t, step s = .next t) ∧ ∀ (i : Instr) (s : State), ∃ t, exec i s = .next t

/-- 60 R303: a run that ends well had FAULT = none throughout. -/
def Obligations.EndsWellMeansNoFaultThroughout : Prop :=
  ∀ (before after : List Event) (s t : State), EndsWell (before ++ after) s t →
    ∃ u, runEvents before s = .next u ∧ u.fault = none ∧ EndsWell after u t

/-! ### Whole-machine rules -/

/-- 20 R61: Fx33 and Fx55 are the only instructions that change a byte of memory. -/
def Obligations.OnlyTwoInstructionsStore : Prop :=
  ∀ (i : Instr) (s t : State) (a : Nat), exec i s = .next t → t.peek a ≠ s.peek a →
    ∃ x, i = .ldB x ∨ i = .ldMemVx x

/-- 10 R40, R39: only a call changes a stack slot, only a call or a return changes SP, and only Annn, Fx1E and Fx29
change `I`. -/
def Obligations.StackAndIndexWriters : Prop :=
  ∀ (i : Instr) (s t : State), exec i s = .next t →
    (t.stack ≠ s.stack → ∃ nnn, i = .call nnn) ∧ (t.sp ≠ s.sp → i = .ret ∨ ∃ nnn, i = .call nnn) ∧
    (t.index ≠ s.index → (∃ nnn, i = .ldI nnn) ∨ ∃ x, i = .addI x ∨ i = .ldF x)

/-- 10 R49, R50, R44: 00E0 and Dxyn alone change the framebuffer, Fx15 alone DT, Fx18 alone ST, and no instruction a key
or a parameter. -/
def Obligations.DeviceWriters : Prop :=
  ∀ (i : Instr) (s t : State), exec i s = .next t →
    (t.fb ≠ s.fb → i = .cls ∨ ∃ x y n, i = .drw x y n) ∧ (t.dt ≠ s.dt → ∃ x, i = .ldDtVx x) ∧
    (t.st ≠ s.st → ∃ x, i = .ldStVx x) ∧ t.keys = s.keys ∧ t.config = s.config

/-- 10 R51: VF changes only in an instruction that writes it as a flag or names it as a destination. -/
def Obligations.VfWriters : Prop :=
  ∀ (i : Instr) (s t : State), exec i s = .next t → t.readV 15 ≠ s.readV 15 →
    (∃ x y, i = .addReg x y ∨ i = .subReg x y ∨ i = .shr x y ∨ i = .subnReg x y ∨ i = .shl x y ∨
      ∃ n, i = .drw x y n) ∨
    (∃ nn, i = .ldImm 15 nn ∨ i = .addImm 15 nn ∨ i = .rnd 15 nn) ∨
    (∃ y, i = .ldReg 15 y ∨ i = .orReg 15 y ∨ i = .andReg 15 y ∨ i = .xorReg 15 y) ∨
    i = .ldVxDt 15 ∨ i = .ldVxK 15 ∨ i = .ldVxMem 15

/-- 40 R128: after an instruction that does not fault, `pc` is where the fetch left it, but for a skip, which adds 2, the
four transfers of control, and the wait for a key. -/
def Obligations.PcWriters : Prop :=
  ∀ (i : Instr) (s t : State), s.fault = none → exec i s = .next t → t.fault = none → t.pc ≠ s.pc →
    (t.pc = s.pc + 2 ∧ ∃ x y nn, i = .seImm x nn ∨ i = .sneImm x nn ∨ i = .seReg x y ∨ i = .sneReg x y ∨
      i = .skp x ∨ i = .sknp x) ∨
    i = .ret ∨ (∃ nnn, i = .jp nnn ∨ i = .call nnn ∨ i = .jpV0 nnn) ∨ ∃ x, i = .ldVxK x ∧ t.pc = s.pc - 2

/-- 60 R311: under any event a timer rises only by the step of its setting instruction. -/
def Obligations.TimersRiseOnlyWhenSet : Prop :=
  ∀ (e : Event) (s t : State), e.apply s = .next t →
    (s.dt.toNat < t.dt.toNat → e = .step ∧ ∃ x, decode s.fetchBytes = .instr (.ldDtVx x) []) ∧
    (s.st.toNat < t.st.toNat → e = .step ∧ ∃ x, decode s.fetchBytes = .instr (.ldStVx x) [])

/-- 20 R72, 10 R53: no instruction but Cxnn takes a draw, and none but Cxnn depends on which draw comes next. -/
def Obligations.OnlyRandomTakesDraws : Prop :=
  ∀ (i : Instr) (s t : State) (d : Nat), (∀ x nn, i ≠ .rnd x nn) → exec i s = .next t →
    t.draws = s.draws ∧ exec i { s with draws := d } = .next { t with draws := d }

/-- 10 R50, R52: no instruction but Ex9E, ExA1 and Fx0A depends on the keypad, and none at all on ST. -/
def Obligations.KeypadAndSoundTimerReaders : Prop :=
  (∀ (i : Instr) (s t : State) (keys : Vector Bool 16), (∀ x, i ≠ .skp x ∧ i ≠ .sknp x ∧ i ≠ .ldVxK x) →
    exec i s = .next t → exec i { s with keys := keys } = .next { t with keys := keys }) ∧
  (∀ (i : Instr) (s t : State) (b : Byte), exec i s = .next t →
    ∃ t', exec i { s with st := b } = .next t' ∧ { t' with st := t.st } = t)

/-! ### Invariants -/

/-- The invariant of the model's memory (log entry 5) holds at reset. -/
def Obligations.ResetMeetsInvariant : Prop := State.reset.Inv ∧ State.reset.fault = none

/-- Every step keeps memory in its canonical form, which is the model's own (log entry 5): addresses rising and inside the
address space, no byte listed that its address reads as anyway. -/
def Obligations.StepKeepsInvariant : Prop := ∀ s t : State, s.Inv → step s = .next t → t.Inv

/-- Under every schedule of steps and host operations memory stays in its canonical form, which is the model's own (log
entry 5), and the parameters, which the state carries by the model's choice (log entry 1), stay as they are. -/
def Obligations.ScheduleKeepsInvariant : Prop :=
  ∀ (events : List Event) (s t : State), s.Inv → runEvents events s = .next t → t.Inv ∧ t.config = s.config

/-- Memories that hold the canonical form, the model's own (log entry 5), and read the same are the same data. -/
def Obligations.CanonicalMemoryIsUnique : Prop :=
  ∀ (font : Fontset) (m m' : Memory), Memory.wf font m → Memory.wf font m' →
    (∀ a, a < 4096 → Memory.read font m a = Memory.read font m' a) → m = m'
end

