-- ==== Sys2Proof/Laws/Decode.lean ====
section
/-! SUPPORT. The fields of a word, the masks of Table 11 in terms of the fields, and the fields of an encoded word. -/

namespace Sys2Proof

/-- Two concatenations of the same widths are equal exactly when their parts are. -/
theorem append_eq_append_iff {n m : Nat} (a c : BitVec n) (b d : BitVec m) : a ++ b = c ++ d ↔ a = c ∧ b = d := by
  constructor
  · intro h
    have hl := congrArg (fun v => v.extractLsb' m n) h
    have hr := congrArg (fun v => v.extractLsb' 0 m) h
    simp only [BitVec.extractLsb'_append_eq_left] at hl
    simp only [BitVec.extractLsb'_append_eq_right] at hr
    exact ⟨hl, hr⟩
  · rintro ⟨rfl, rfl⟩; rfl

/-- A word is its four nibbles, the most significant first (30 R92). -/
theorem word_eq_nibbles (w : Word) :
    w = (fieldO w ++ w.extractLsb' 8 4 : BitVec 8) ++ (w.extractLsb' 4 4 ++ fieldN w : BitVec 8) := by
  ext i hi
  simp only [fieldO, fieldN]
  grind

theorem fieldNN_eq (w : Word) : fieldNN w = w.extractLsb' 4 4 ++ fieldN w := by
  ext i hi
  simp only [fieldNN, fieldN, BitVec.getElem_extractLsb']
  grind

theorem fieldNNN_eq (w : Word) : fieldNNN w = w.extractLsb' 8 4 ++ fieldNN w := by
  ext i hi
  simp only [fieldNNN, fieldNN, BitVec.getElem_extractLsb']
  grind

/-- The two bytes of a masked word. -/
theorem and_bytes (a b c d : Byte) : ((a ++ b : Word) &&& (c ++ d : Word)) = ((a &&& c) ++ (b &&& d) : Word) :=
  BitVec.and_append

/-- The two nibbles of a masked byte. -/
theorem and_nibbles (a b c d : Nibble) : ((a ++ b : Byte) &&& (c ++ d : Byte)) = ((a &&& c) ++ (b &&& d) : Byte) :=
  BitVec.and_append

theorem bytes_eq_iff (a b c d : Byte) : (a ++ b : Word) = (c ++ d : Word) ↔ a = c ∧ b = d :=
  append_eq_append_iff a c b d

theorem nibbles_eq_iff (a b c d : Nibble) : (a ++ b : Byte) = (c ++ d : Byte) ↔ a = c ∧ b = d :=
  append_eq_append_iff a c b d

theorem nibble_and_ones (a : Nibble) : a &&& (0xF : Nibble) = a := BitVec.and_allOnes

theorem nibble_and_zero (a : Nibble) : a &&& (0 : Nibble) = 0 := BitVec.and_zero

/-- The mask 0xF000 keeps the major opcode. -/
theorem and_F000 (w : Word) (o : Nibble) :
    w &&& 0xF000 = ((o ++ (0 : Nibble) : Byte) ++ ((0 : Nibble) ++ (0 : Nibble) : Byte) : Word) ↔ fieldO w = o := by
  have hm : (0xF000 : Word) =
      (((0xF : Nibble) ++ (0 : Nibble) : Byte) ++ ((0 : Nibble) ++ (0 : Nibble) : Byte) : Word) := by decide
  conv_lhs => rw [hm, word_eq_nibbles w]
  rw [and_bytes, and_nibbles, and_nibbles, bytes_eq_iff, nibbles_eq_iff, nibbles_eq_iff, nibble_and_ones,
    nibble_and_zero, nibble_and_zero, nibble_and_zero]
  simp

/-- The mask 0xF00F keeps the major opcode and the field `n`. -/
theorem and_F00F (w : Word) (o n : Nibble) :
    w &&& 0xF00F = ((o ++ (0 : Nibble) : Byte) ++ ((0 : Nibble) ++ n : Byte) : Word) ↔
      fieldO w = o ∧ fieldN w = n := by
  have hm : (0xF00F : Word) =
      (((0xF : Nibble) ++ (0 : Nibble) : Byte) ++ ((0 : Nibble) ++ (0xF : Nibble) : Byte) : Word) := by decide
  conv_lhs => rw [hm, word_eq_nibbles w]
  rw [and_bytes, and_nibbles, and_nibbles, bytes_eq_iff, nibbles_eq_iff, nibbles_eq_iff, nibble_and_ones,
    nibble_and_ones, nibble_and_zero, nibble_and_zero]
  simp

/-- The mask 0xF0FF keeps the major opcode and the field `nn`. -/
theorem and_F0FF (w : Word) (o : Nibble) (nn : Byte) :
    w &&& 0xF0FF = ((o ++ (0 : Nibble) : Byte) ++ nn : Word) ↔ fieldO w = o ∧ fieldNN w = nn := by
  have hm : (0xF0FF : Word) = (((0xF : Nibble) ++ (0 : Nibble) : Byte) ++ (0xFF : Byte) : Word) := by decide
  have hw : w = ((fieldO w ++ w.extractLsb' 8 4 : Byte) ++ fieldNN w : Word) := by
    rw [fieldNN_eq]; exact word_eq_nibbles w
  have hff : fieldNN w &&& (0xFF : Byte) = fieldNN w := BitVec.and_allOnes
  conv_lhs => rw [hm, hw]
  rw [and_bytes, and_nibbles, bytes_eq_iff, nibbles_eq_iff, nibble_and_ones, nibble_and_zero, hff]
  simp

/-! ### The fields of the encoders -/

theorem fieldO_append (a b : Nibble) (c : Byte) : fieldO ((a ++ b : BitVec 8) ++ c) = a := by
  ext i hi
  simp only [fieldO, BitVec.getElem_extractLsb', BitVec.getLsbD_append]
  grind

theorem fieldX_append (a b : Nibble) (c : Byte) : fieldX ((a ++ b : BitVec 8) ++ c) = b.toFin := by
  unfold fieldX
  congr 1
  ext i hi
  simp only [BitVec.getElem_extractLsb', BitVec.getLsbD_append]
  grind

theorem fieldNN_append (a : BitVec 8) (c : Byte) : fieldNN (a ++ c : Word) = c := BitVec.extractLsb'_append_eq_right

theorem fieldY_append (a : BitVec 8) (c d : Nibble) : fieldY (a ++ (c ++ d : BitVec 8) : Word) = c.toFin := by
  unfold fieldY
  congr 1
  ext i hi
  simp only [BitVec.getElem_extractLsb', BitVec.getLsbD_append]
  grind

theorem fieldN_append (a : BitVec 8) (c d : Nibble) : fieldN (a ++ (c ++ d : BitVec 8) : Word) = d := by
  ext i hi
  simp only [fieldN, BitVec.getElem_extractLsb', BitVec.getLsbD_append]
  grind

theorem toFin_regBits (r : Reg) : (regBits r).toFin = r := rfl

@[simp] theorem fieldO_encodeAddr (o : Nibble) (nnn : Addr12) : fieldO (encodeAddr o nnn) = o :=
  BitVec.extractLsb'_append_eq_left

@[simp] theorem fieldNNN_encodeAddr (o : Nibble) (nnn : Addr12) : fieldNNN (encodeAddr o nnn) = nnn :=
  BitVec.extractLsb'_append_eq_right

@[simp] theorem fieldO_encodeXNN (o : Nibble) (x : Reg) (nn : Byte) : fieldO (encodeXNN o x nn) = o :=
  fieldO_append _ _ _

@[simp] theorem fieldX_encodeXNN (o : Nibble) (x : Reg) (nn : Byte) : fieldX (encodeXNN o x nn) = x :=
  fieldX_append _ _ _

@[simp] theorem fieldNN_encodeXNN (o : Nibble) (x : Reg) (nn : Byte) : fieldNN (encodeXNN o x nn) = nn :=
  fieldNN_append _ _

@[simp] theorem fieldO_encodeXYN (o : Nibble) (x y : Reg) (n : Nibble) : fieldO (encodeXYN o x y n) = o :=
  fieldO_append _ _ _

@[simp] theorem fieldX_encodeXYN (o : Nibble) (x y : Reg) (n : Nibble) : fieldX (encodeXYN o x y n) = x :=
  fieldX_append _ _ _

@[simp] theorem fieldY_encodeXYN (o : Nibble) (x y : Reg) (n : Nibble) : fieldY (encodeXYN o x y n) = y :=
  fieldY_append _ _ _

@[simp] theorem fieldN_encodeXYN (o : Nibble) (x y : Reg) (n : Nibble) : fieldN (encodeXYN o x y n) = n :=
  fieldN_append _ _ _

/-! ### The decoder by major opcode (30 R98) -/

/-- A nibble is one of the sixteen. -/
theorem nibble_cases (o : Nibble) :
    o = 0x0 ∨ o = 0x1 ∨ o = 0x2 ∨ o = 0x3 ∨ o = 0x4 ∨ o = 0x5 ∨ o = 0x6 ∨ o = 0x7 ∨ o = 0x8 ∨ o = 0x9 ∨ o = 0xA ∨
      o = 0xB ∨ o = 0xC ∨ o = 0xD ∨ o = 0xE ∨ o = 0xF := by
  revert o; decide

theorem decodeWord_major0 (w : Word) (h : fieldO w = 0x0) :
    decodeWord w = (if w = 0x00E0 then some .cls else if w = 0x00EE then some .ret else none) := by
  unfold decodeWord; rw [h]; rfl

theorem decodeWord_major1 (w : Word) (h : fieldO w = 0x1) :
    decodeWord w = some (.jp (fieldNNN w)) := by
  unfold decodeWord; rw [h]; rfl

theorem decodeWord_major2 (w : Word) (h : fieldO w = 0x2) :
    decodeWord w = some (.call (fieldNNN w)) := by
  unfold decodeWord; rw [h]; rfl

theorem decodeWord_major3 (w : Word) (h : fieldO w = 0x3) :
    decodeWord w = some (.seImm (fieldX w) (fieldNN w)) := by
  unfold decodeWord; rw [h]; rfl

theorem decodeWord_major4 (w : Word) (h : fieldO w = 0x4) :
    decodeWord w = some (.sneImm (fieldX w) (fieldNN w)) := by
  unfold decodeWord; rw [h]; rfl

theorem decodeWord_major5 (w : Word) (h : fieldO w = 0x5) :
    decodeWord w = (if fieldN w = 0 then some (.seReg (fieldX w) (fieldY w)) else none) := by
  unfold decodeWord; rw [h]; rfl

theorem decodeWord_major6 (w : Word) (h : fieldO w = 0x6) :
    decodeWord w = some (.ldImm (fieldX w) (fieldNN w)) := by
  unfold decodeWord; rw [h]; rfl

theorem decodeWord_major7 (w : Word) (h : fieldO w = 0x7) :
    decodeWord w = some (.addImm (fieldX w) (fieldNN w)) := by
  unfold decodeWord; rw [h]; rfl

theorem decodeWord_major8 (w : Word) (h : fieldO w = 0x8) :
    decodeWord w = decodeAlu (fieldX w) (fieldY w) (fieldN w) := by
  unfold decodeWord; rw [h]; rfl

theorem decodeWord_major9 (w : Word) (h : fieldO w = 0x9) :
    decodeWord w = (if fieldN w = 0 then some (.sneReg (fieldX w) (fieldY w)) else none) := by
  unfold decodeWord; rw [h]; rfl

theorem decodeWord_majorA (w : Word) (h : fieldO w = 0xA) :
    decodeWord w = some (.ldI (fieldNNN w)) := by
  unfold decodeWord; rw [h]; rfl

theorem decodeWord_majorB (w : Word) (h : fieldO w = 0xB) :
    decodeWord w = some (.jpV0 (fieldNNN w)) := by
  unfold decodeWord; rw [h]; rfl

theorem decodeWord_majorC (w : Word) (h : fieldO w = 0xC) :
    decodeWord w = some (.rnd (fieldX w) (fieldNN w)) := by
  unfold decodeWord; rw [h]; rfl

theorem decodeWord_majorD (w : Word) (h : fieldO w = 0xD) :
    decodeWord w = some (.drw (fieldX w) (fieldY w) (fieldN w).toNat) := by
  unfold decodeWord; rw [h]; rfl

theorem decodeWord_majorE (w : Word) (h : fieldO w = 0xE) :
    decodeWord w = decodeKeySkip (fieldX w) (fieldNN w) := by
  unfold decodeWord; rw [h]; rfl

theorem decodeWord_majorF (w : Word) (h : fieldO w = 0xF) :
    decodeWord w = decodeMisc (fieldX w) (fieldNN w) := by
  unfold decodeWord; rw [h]; rfl

/-! ### Words and bytes -/

theorem wordOfBytes_bytes (w : Word) : wordOfBytes (hiByte w) (loByte w) = w := by
  ext i hi
  simp only [wordOfBytes, hiByte, loByte]
  grind

theorem hiByte_wordOfBytes (hi lo : Byte) : hiByte (wordOfBytes hi lo) = hi := BitVec.extractLsb'_append_eq_left

theorem loByte_wordOfBytes (hi lo : Byte) : loByte (wordOfBytes hi lo) = lo := BitVec.extractLsb'_append_eq_right

/-- What the decoder can answer for two bytes and more (30 R93). -/
theorem decode_two (hi lo : Byte) (rest : List Byte) :
    decode (hi :: lo :: rest) =
      match decodeWord (wordOfBytes hi lo) with
      | some i => .instr i rest
      | none => .rejected (.undecoded (wordOfBytes hi lo)) := rfl

end Sys2Proof
end

