-- ==== Sys2Proof/Laws/State.lean ====
section
/-! SUPPORT. What each update of the state does to each field, so that no later proof unfolds a record update. -/

namespace Sys2Proof.Machine

/-! ### advance -/

@[simp] theorem State.advance_config (s : State) : s.advance.config = s.config := rfl
@[simp] theorem State.advance_mem (s : State) : s.advance.mem = s.mem := rfl
@[simp] theorem State.advance_v (s : State) : s.advance.v = s.v := rfl
@[simp] theorem State.advance_index (s : State) : s.advance.index = s.index := rfl
@[simp] theorem State.advance_pc (s : State) : s.advance.pc = s.pc + 2 := rfl
@[simp] theorem State.advance_stack (s : State) : s.advance.stack = s.stack := rfl
@[simp] theorem State.advance_sp (s : State) : s.advance.sp = s.sp := rfl
@[simp] theorem State.advance_dt (s : State) : s.advance.dt = s.dt := rfl
@[simp] theorem State.advance_st (s : State) : s.advance.st = s.st := rfl
@[simp] theorem State.advance_fb (s : State) : s.advance.fb = s.fb := rfl
@[simp] theorem State.advance_keys (s : State) : s.advance.keys = s.keys := rfl
@[simp] theorem State.advance_fault (s : State) : s.advance.fault = s.fault := rfl
@[simp] theorem State.advance_draws (s : State) : s.advance.draws = s.draws := rfl

/-! ### rewind -/

@[simp] theorem State.rewind_config (s : State) : s.rewind.config = s.config := rfl
@[simp] theorem State.rewind_mem (s : State) : s.rewind.mem = s.mem := rfl
@[simp] theorem State.rewind_v (s : State) : s.rewind.v = s.v := rfl
@[simp] theorem State.rewind_index (s : State) : s.rewind.index = s.index := rfl
@[simp] theorem State.rewind_pc (s : State) : s.rewind.pc = s.pc - 2 := rfl
@[simp] theorem State.rewind_stack (s : State) : s.rewind.stack = s.stack := rfl
@[simp] theorem State.rewind_sp (s : State) : s.rewind.sp = s.sp := rfl
@[simp] theorem State.rewind_dt (s : State) : s.rewind.dt = s.dt := rfl
@[simp] theorem State.rewind_st (s : State) : s.rewind.st = s.st := rfl
@[simp] theorem State.rewind_fb (s : State) : s.rewind.fb = s.fb := rfl
@[simp] theorem State.rewind_keys (s : State) : s.rewind.keys = s.keys := rfl
@[simp] theorem State.rewind_fault (s : State) : s.rewind.fault = s.fault := rfl
@[simp] theorem State.rewind_draws (s : State) : s.rewind.draws = s.draws := rfl

/-! ### jump -/

@[simp] theorem State.jump_config (s : State) (w : Word) : (s.jump w).config = s.config := rfl
@[simp] theorem State.jump_mem (s : State) (w : Word) : (s.jump w).mem = s.mem := rfl
@[simp] theorem State.jump_v (s : State) (w : Word) : (s.jump w).v = s.v := rfl
@[simp] theorem State.jump_index (s : State) (w : Word) : (s.jump w).index = s.index := rfl
@[simp] theorem State.jump_pc (s : State) (w : Word) : (s.jump w).pc = w := rfl
@[simp] theorem State.jump_stack (s : State) (w : Word) : (s.jump w).stack = s.stack := rfl
@[simp] theorem State.jump_sp (s : State) (w : Word) : (s.jump w).sp = s.sp := rfl
@[simp] theorem State.jump_dt (s : State) (w : Word) : (s.jump w).dt = s.dt := rfl
@[simp] theorem State.jump_st (s : State) (w : Word) : (s.jump w).st = s.st := rfl
@[simp] theorem State.jump_fb (s : State) (w : Word) : (s.jump w).fb = s.fb := rfl
@[simp] theorem State.jump_keys (s : State) (w : Word) : (s.jump w).keys = s.keys := rfl
@[simp] theorem State.jump_fault (s : State) (w : Word) : (s.jump w).fault = s.fault := rfl
@[simp] theorem State.jump_draws (s : State) (w : Word) : (s.jump w).draws = s.draws := rfl

/-! ### recordFault -/

@[simp] theorem State.recordFault_config (s : State) (f : Fault) : (s.recordFault f).config = s.config := rfl
@[simp] theorem State.recordFault_mem (s : State) (f : Fault) : (s.recordFault f).mem = s.mem := rfl
@[simp] theorem State.recordFault_v (s : State) (f : Fault) : (s.recordFault f).v = s.v := rfl
@[simp] theorem State.recordFault_index (s : State) (f : Fault) : (s.recordFault f).index = s.index := rfl
@[simp] theorem State.recordFault_pc (s : State) (f : Fault) : (s.recordFault f).pc = s.pc := rfl
@[simp] theorem State.recordFault_stack (s : State) (f : Fault) : (s.recordFault f).stack = s.stack := rfl
@[simp] theorem State.recordFault_sp (s : State) (f : Fault) : (s.recordFault f).sp = s.sp := rfl
@[simp] theorem State.recordFault_dt (s : State) (f : Fault) : (s.recordFault f).dt = s.dt := rfl
@[simp] theorem State.recordFault_st (s : State) (f : Fault) : (s.recordFault f).st = s.st := rfl
@[simp] theorem State.recordFault_fb (s : State) (f : Fault) : (s.recordFault f).fb = s.fb := rfl
@[simp] theorem State.recordFault_keys (s : State) (f : Fault) : (s.recordFault f).keys = s.keys := rfl
@[simp] theorem State.recordFault_fault (s : State) (f : Fault) : (s.recordFault f).fault = some f := rfl
@[simp] theorem State.recordFault_draws (s : State) (f : Fault) : (s.recordFault f).draws = s.draws := rfl

/-! ### writeV -/

@[simp] theorem State.writeV_config (s : State) (r : Reg) (b : Byte) : (s.writeV r b).config = s.config := rfl
@[simp] theorem State.writeV_mem (s : State) (r : Reg) (b : Byte) : (s.writeV r b).mem = s.mem := rfl
@[simp] theorem State.writeV_v (s : State) (r : Reg) (b : Byte) : (s.writeV r b).v = s.v.set r b := rfl
@[simp] theorem State.writeV_index (s : State) (r : Reg) (b : Byte) : (s.writeV r b).index = s.index := rfl
@[simp] theorem State.writeV_pc (s : State) (r : Reg) (b : Byte) : (s.writeV r b).pc = s.pc := rfl
@[simp] theorem State.writeV_stack (s : State) (r : Reg) (b : Byte) : (s.writeV r b).stack = s.stack := rfl
@[simp] theorem State.writeV_sp (s : State) (r : Reg) (b : Byte) : (s.writeV r b).sp = s.sp := rfl
@[simp] theorem State.writeV_dt (s : State) (r : Reg) (b : Byte) : (s.writeV r b).dt = s.dt := rfl
@[simp] theorem State.writeV_st (s : State) (r : Reg) (b : Byte) : (s.writeV r b).st = s.st := rfl
@[simp] theorem State.writeV_fb (s : State) (r : Reg) (b : Byte) : (s.writeV r b).fb = s.fb := rfl
@[simp] theorem State.writeV_keys (s : State) (r : Reg) (b : Byte) : (s.writeV r b).keys = s.keys := rfl
@[simp] theorem State.writeV_fault (s : State) (r : Reg) (b : Byte) : (s.writeV r b).fault = s.fault := rfl
@[simp] theorem State.writeV_draws (s : State) (r : Reg) (b : Byte) : (s.writeV r b).draws = s.draws := rfl

/-! ### writeIndex -/

@[simp] theorem State.writeIndex_config (s : State) (w : Word) : (s.writeIndex w).config = s.config := rfl
@[simp] theorem State.writeIndex_mem (s : State) (w : Word) : (s.writeIndex w).mem = s.mem := rfl
@[simp] theorem State.writeIndex_v (s : State) (w : Word) : (s.writeIndex w).v = s.v := rfl
@[simp] theorem State.writeIndex_index (s : State) (w : Word) : (s.writeIndex w).index = w := rfl
@[simp] theorem State.writeIndex_pc (s : State) (w : Word) : (s.writeIndex w).pc = s.pc := rfl
@[simp] theorem State.writeIndex_stack (s : State) (w : Word) : (s.writeIndex w).stack = s.stack := rfl
@[simp] theorem State.writeIndex_sp (s : State) (w : Word) : (s.writeIndex w).sp = s.sp := rfl
@[simp] theorem State.writeIndex_dt (s : State) (w : Word) : (s.writeIndex w).dt = s.dt := rfl
@[simp] theorem State.writeIndex_st (s : State) (w : Word) : (s.writeIndex w).st = s.st := rfl
@[simp] theorem State.writeIndex_fb (s : State) (w : Word) : (s.writeIndex w).fb = s.fb := rfl
@[simp] theorem State.writeIndex_keys (s : State) (w : Word) : (s.writeIndex w).keys = s.keys := rfl
@[simp] theorem State.writeIndex_fault (s : State) (w : Word) : (s.writeIndex w).fault = s.fault := rfl
@[simp] theorem State.writeIndex_draws (s : State) (w : Word) : (s.writeIndex w).draws = s.draws := rfl

/-! ### advanceDraws -/

@[simp] theorem State.advanceDraws_config (s : State) : s.advanceDraws.config = s.config := rfl
@[simp] theorem State.advanceDraws_mem (s : State) : s.advanceDraws.mem = s.mem := rfl
@[simp] theorem State.advanceDraws_v (s : State) : s.advanceDraws.v = s.v := rfl
@[simp] theorem State.advanceDraws_index (s : State) : s.advanceDraws.index = s.index := rfl
@[simp] theorem State.advanceDraws_pc (s : State) : s.advanceDraws.pc = s.pc := rfl
@[simp] theorem State.advanceDraws_stack (s : State) : s.advanceDraws.stack = s.stack := rfl
@[simp] theorem State.advanceDraws_sp (s : State) : s.advanceDraws.sp = s.sp := rfl
@[simp] theorem State.advanceDraws_dt (s : State) : s.advanceDraws.dt = s.dt := rfl
@[simp] theorem State.advanceDraws_st (s : State) : s.advanceDraws.st = s.st := rfl
@[simp] theorem State.advanceDraws_fb (s : State) : s.advanceDraws.fb = s.fb := rfl
@[simp] theorem State.advanceDraws_keys (s : State) : s.advanceDraws.keys = s.keys := rfl
@[simp] theorem State.advanceDraws_fault (s : State) : s.advanceDraws.fault = s.fault := rfl
@[simp] theorem State.advanceDraws_draws (s : State) : s.advanceDraws.draws = s.draws + 1 := rfl

/-! ### tickTimers -/

@[simp] theorem State.tickTimers_config (s : State) : s.tickTimers.config = s.config := rfl
@[simp] theorem State.tickTimers_mem (s : State) : s.tickTimers.mem = s.mem := rfl
@[simp] theorem State.tickTimers_v (s : State) : s.tickTimers.v = s.v := rfl
@[simp] theorem State.tickTimers_index (s : State) : s.tickTimers.index = s.index := rfl
@[simp] theorem State.tickTimers_pc (s : State) : s.tickTimers.pc = s.pc := rfl
@[simp] theorem State.tickTimers_stack (s : State) : s.tickTimers.stack = s.stack := rfl
@[simp] theorem State.tickTimers_sp (s : State) : s.tickTimers.sp = s.sp := rfl
@[simp] theorem State.tickTimers_dt (s : State) : s.tickTimers.dt = tickDown s.dt := rfl
@[simp] theorem State.tickTimers_st (s : State) : s.tickTimers.st = tickDown s.st := rfl
@[simp] theorem State.tickTimers_fb (s : State) : s.tickTimers.fb = s.fb := rfl
@[simp] theorem State.tickTimers_keys (s : State) : s.tickTimers.keys = s.keys := rfl
@[simp] theorem State.tickTimers_fault (s : State) : s.tickTimers.fault = s.fault := rfl
@[simp] theorem State.tickTimers_draws (s : State) : s.tickTimers.draws = s.draws := rfl

/-! ### skipIf: `pc` alone may change -/

@[simp] theorem State.skipIf_config (s : State) (c : Bool) : (s.skipIf c).config = s.config := by cases c <;> rfl
@[simp] theorem State.skipIf_mem (s : State) (c : Bool) : (s.skipIf c).mem = s.mem := by cases c <;> rfl
@[simp] theorem State.skipIf_v (s : State) (c : Bool) : (s.skipIf c).v = s.v := by cases c <;> rfl
@[simp] theorem State.skipIf_index (s : State) (c : Bool) : (s.skipIf c).index = s.index := by cases c <;> rfl
theorem State.skipIf_pc (s : State) (c : Bool) : (s.skipIf c).pc = if c then s.pc + 2 else s.pc := by
  cases c <;> rfl
@[simp] theorem State.skipIf_stack (s : State) (c : Bool) : (s.skipIf c).stack = s.stack := by cases c <;> rfl
@[simp] theorem State.skipIf_sp (s : State) (c : Bool) : (s.skipIf c).sp = s.sp := by cases c <;> rfl
@[simp] theorem State.skipIf_dt (s : State) (c : Bool) : (s.skipIf c).dt = s.dt := by cases c <;> rfl
@[simp] theorem State.skipIf_st (s : State) (c : Bool) : (s.skipIf c).st = s.st := by cases c <;> rfl
@[simp] theorem State.skipIf_fb (s : State) (c : Bool) : (s.skipIf c).fb = s.fb := by cases c <;> rfl
@[simp] theorem State.skipIf_keys (s : State) (c : Bool) : (s.skipIf c).keys = s.keys := by cases c <;> rfl
@[simp] theorem State.skipIf_fault (s : State) (c : Bool) : (s.skipIf c).fault = s.fault := by cases c <;> rfl
@[simp] theorem State.skipIf_draws (s : State) (c : Bool) : (s.skipIf c).draws = s.draws := by cases c <;> rfl

/-! ### poke: `mem` alone may change -/

@[simp] theorem State.poke_config (s : State) (a : Nat) (b : Byte) : (s.poke a b).config = s.config := by
  unfold State.poke; split <;> rfl
@[simp] theorem State.poke_v (s : State) (a : Nat) (b : Byte) : (s.poke a b).v = s.v := by
  unfold State.poke; split <;> rfl
@[simp] theorem State.poke_index (s : State) (a : Nat) (b : Byte) : (s.poke a b).index = s.index := by
  unfold State.poke; split <;> rfl
@[simp] theorem State.poke_pc (s : State) (a : Nat) (b : Byte) : (s.poke a b).pc = s.pc := by
  unfold State.poke; split <;> rfl
@[simp] theorem State.poke_stack (s : State) (a : Nat) (b : Byte) : (s.poke a b).stack = s.stack := by
  unfold State.poke; split <;> rfl
@[simp] theorem State.poke_sp (s : State) (a : Nat) (b : Byte) : (s.poke a b).sp = s.sp := by
  unfold State.poke; split <;> rfl
@[simp] theorem State.poke_dt (s : State) (a : Nat) (b : Byte) : (s.poke a b).dt = s.dt := by
  unfold State.poke; split <;> rfl
@[simp] theorem State.poke_st (s : State) (a : Nat) (b : Byte) : (s.poke a b).st = s.st := by
  unfold State.poke; split <;> rfl
@[simp] theorem State.poke_fb (s : State) (a : Nat) (b : Byte) : (s.poke a b).fb = s.fb := by
  unfold State.poke; split <;> rfl
@[simp] theorem State.poke_keys (s : State) (a : Nat) (b : Byte) : (s.poke a b).keys = s.keys := by
  unfold State.poke; split <;> rfl
@[simp] theorem State.poke_fault (s : State) (a : Nat) (b : Byte) : (s.poke a b).fault = s.fault := by
  unfold State.poke; split <;> rfl
@[simp] theorem State.poke_draws (s : State) (a : Nat) (b : Byte) : (s.poke a b).draws = s.draws := by
  unfold State.poke; split <;> rfl

/-! ### storeBytes: `mem` alone may change -/

@[simp] theorem State.storeBytes_config (s : State) (base : Nat) (bs : List Byte) : (s.storeBytes base bs).config = s.config := by
  induction bs generalizing s base with
  | nil => rfl
  | cons b bs ih => simp [State.storeBytes, State.writeByte, ih]
@[simp] theorem State.storeBytes_v (s : State) (base : Nat) (bs : List Byte) : (s.storeBytes base bs).v = s.v := by
  induction bs generalizing s base with
  | nil => rfl
  | cons b bs ih => simp [State.storeBytes, State.writeByte, ih]
@[simp] theorem State.storeBytes_index (s : State) (base : Nat) (bs : List Byte) : (s.storeBytes base bs).index = s.index := by
  induction bs generalizing s base with
  | nil => rfl
  | cons b bs ih => simp [State.storeBytes, State.writeByte, ih]
@[simp] theorem State.storeBytes_pc (s : State) (base : Nat) (bs : List Byte) : (s.storeBytes base bs).pc = s.pc := by
  induction bs generalizing s base with
  | nil => rfl
  | cons b bs ih => simp [State.storeBytes, State.writeByte, ih]
@[simp] theorem State.storeBytes_stack (s : State) (base : Nat) (bs : List Byte) : (s.storeBytes base bs).stack = s.stack := by
  induction bs generalizing s base with
  | nil => rfl
  | cons b bs ih => simp [State.storeBytes, State.writeByte, ih]
@[simp] theorem State.storeBytes_sp (s : State) (base : Nat) (bs : List Byte) : (s.storeBytes base bs).sp = s.sp := by
  induction bs generalizing s base with
  | nil => rfl
  | cons b bs ih => simp [State.storeBytes, State.writeByte, ih]
@[simp] theorem State.storeBytes_dt (s : State) (base : Nat) (bs : List Byte) : (s.storeBytes base bs).dt = s.dt := by
  induction bs generalizing s base with
  | nil => rfl
  | cons b bs ih => simp [State.storeBytes, State.writeByte, ih]
@[simp] theorem State.storeBytes_st (s : State) (base : Nat) (bs : List Byte) : (s.storeBytes base bs).st = s.st := by
  induction bs generalizing s base with
  | nil => rfl
  | cons b bs ih => simp [State.storeBytes, State.writeByte, ih]
@[simp] theorem State.storeBytes_fb (s : State) (base : Nat) (bs : List Byte) : (s.storeBytes base bs).fb = s.fb := by
  induction bs generalizing s base with
  | nil => rfl
  | cons b bs ih => simp [State.storeBytes, State.writeByte, ih]
@[simp] theorem State.storeBytes_keys (s : State) (base : Nat) (bs : List Byte) : (s.storeBytes base bs).keys = s.keys := by
  induction bs generalizing s base with
  | nil => rfl
  | cons b bs ih => simp [State.storeBytes, State.writeByte, ih]
@[simp] theorem State.storeBytes_fault (s : State) (base : Nat) (bs : List Byte) : (s.storeBytes base bs).fault = s.fault := by
  induction bs generalizing s base with
  | nil => rfl
  | cons b bs ih => simp [State.storeBytes, State.writeByte, ih]
@[simp] theorem State.storeBytes_draws (s : State) (base : Nat) (bs : List Byte) : (s.storeBytes base bs).draws = s.draws := by
  induction bs generalizing s base with
  | nil => rfl
  | cons b bs ih => simp [State.storeBytes, State.writeByte, ih]

/-! ### pokeBytes: `mem` alone may change -/

@[simp] theorem State.pokeBytes_config (s : State) (base : Nat) (bs : List Byte) : (s.pokeBytes base bs).config = s.config := by
  induction bs generalizing s base with
  | nil => rfl
  | cons b bs ih => simp [State.pokeBytes, ih]
@[simp] theorem State.pokeBytes_v (s : State) (base : Nat) (bs : List Byte) : (s.pokeBytes base bs).v = s.v := by
  induction bs generalizing s base with
  | nil => rfl
  | cons b bs ih => simp [State.pokeBytes, ih]
@[simp] theorem State.pokeBytes_index (s : State) (base : Nat) (bs : List Byte) : (s.pokeBytes base bs).index = s.index := by
  induction bs generalizing s base with
  | nil => rfl
  | cons b bs ih => simp [State.pokeBytes, ih]
@[simp] theorem State.pokeBytes_pc (s : State) (base : Nat) (bs : List Byte) : (s.pokeBytes base bs).pc = s.pc := by
  induction bs generalizing s base with
  | nil => rfl
  | cons b bs ih => simp [State.pokeBytes, ih]
@[simp] theorem State.pokeBytes_stack (s : State) (base : Nat) (bs : List Byte) : (s.pokeBytes base bs).stack = s.stack := by
  induction bs generalizing s base with
  | nil => rfl
  | cons b bs ih => simp [State.pokeBytes, ih]
@[simp] theorem State.pokeBytes_sp (s : State) (base : Nat) (bs : List Byte) : (s.pokeBytes base bs).sp = s.sp := by
  induction bs generalizing s base with
  | nil => rfl
  | cons b bs ih => simp [State.pokeBytes, ih]
@[simp] theorem State.pokeBytes_dt (s : State) (base : Nat) (bs : List Byte) : (s.pokeBytes base bs).dt = s.dt := by
  induction bs generalizing s base with
  | nil => rfl
  | cons b bs ih => simp [State.pokeBytes, ih]
@[simp] theorem State.pokeBytes_st (s : State) (base : Nat) (bs : List Byte) : (s.pokeBytes base bs).st = s.st := by
  induction bs generalizing s base with
  | nil => rfl
  | cons b bs ih => simp [State.pokeBytes, ih]
@[simp] theorem State.pokeBytes_fb (s : State) (base : Nat) (bs : List Byte) : (s.pokeBytes base bs).fb = s.fb := by
  induction bs generalizing s base with
  | nil => rfl
  | cons b bs ih => simp [State.pokeBytes, ih]
@[simp] theorem State.pokeBytes_keys (s : State) (base : Nat) (bs : List Byte) : (s.pokeBytes base bs).keys = s.keys := by
  induction bs generalizing s base with
  | nil => rfl
  | cons b bs ih => simp [State.pokeBytes, ih]
@[simp] theorem State.pokeBytes_fault (s : State) (base : Nat) (bs : List Byte) : (s.pokeBytes base bs).fault = s.fault := by
  induction bs generalizing s base with
  | nil => rfl
  | cons b bs ih => simp [State.pokeBytes, ih]
@[simp] theorem State.pokeBytes_draws (s : State) (base : Nat) (bs : List Byte) : (s.pokeBytes base bs).draws = s.draws := by
  induction bs generalizing s base with
  | nil => rfl
  | cons b bs ih => simp [State.pokeBytes, ih]

/-! ### Reading a register after a write -/

@[simp] theorem State.readV_writeV_self (s : State) (r : Reg) (b : Byte) : (s.writeV r b).readV r = b := by
  simp [State.readV]

theorem State.readV_writeV_ne (s : State) (r q : Reg) (b : Byte) (h : q ≠ r) : (s.writeV r b).readV q = s.readV q := by
  have : r.val ≠ q.val := fun e => h (Fin.ext e.symm)
  simp [State.readV, this]

/-- What a register reads after a write, the same register or another. -/
theorem State.readV_writeV (s : State) (r q : Reg) (b : Byte) :
    (s.writeV r b).readV q = if q = r then b else s.readV q := by
  by_cases h : q = r
  · simp [h]
  · simp [h, State.readV_writeV_ne]

/-! ### The reads look at their own component only -/

theorem State.readV_congr {s t : State} (h : t.v = s.v) (r : Reg) : t.readV r = s.readV r := by
  simp [State.readV, h]

theorem State.peek_congr {s t : State} (hm : t.mem = s.mem) (hc : t.config = s.config) (a : Nat) :
    t.peek a = s.peek a := by
  simp [State.peek, hm, hc]

end Sys2Proof.Machine
end

