-- ==== Sys2Proof/Laws/Memory.lean ====
section
/-! SUPPORT. Memory: what a read after a write gives, and that every operation keeps the canonical form. -/

namespace Sys2Proof.Machine

/-! ### The list of bytes -/

theorem Memory.read_cons (font : Fontset) (a : Nat) (b : Byte) (m : Memory) (c : Nat) :
    Memory.read font (Memory.cons font a b m) c =
      if a = c then (if b = powerOnByte font a then Memory.read font m a else b) else Memory.read font m c := by
  unfold Memory.cons
  by_cases hc : a = c
  · subst hc
    by_cases hb : b = powerOnByte font a <;> simp [hb, Memory.read]
  · by_cases hb : b = powerOnByte font a <;> simp [hb, hc, Memory.read]

/-- An address below every listed address reads as the power-on byte. -/
theorem Memory.read_of_lt (font : Fontset) (m : Memory) (a : Nat) (h : ∀ p ∈ m, a < p.1) :
    Memory.read font m a = powerOnByte font a := by
  induction m with
  | nil => rfl
  | cons p m ih =>
    have hp := h p (by simp)
    rw [Memory.read, if_neg (by omega)]
    exact ih (fun q hq => h q (by simp [hq]))

/-- A read after a write, the same address or another, of a memory whose addresses rise. -/
theorem Memory.read_write (font : Fontset) (m : Memory) (a : Nat) (b : Byte) (c : Nat)
    (h : m.Pairwise (fun p q => p.1 < q.1)) :
    Memory.read font (Memory.write font m a b) c = if a = c then b else Memory.read font m c := by
  induction m with
  | nil =>
    rw [Memory.write, Memory.read_cons]
    by_cases hc : a = c
    · subst hc
      by_cases hb : b = powerOnByte font a <;> simp [hb, Memory.read]
    · simp [hc]
  | cons p m ih =>
    obtain ⟨k, d⟩ := p
    rw [List.pairwise_cons] at h
    obtain ⟨hk, hm⟩ := h
    rw [Memory.write]
    split
    · rename_i hlt
      have hread : Memory.read font ((k, d) :: m) a = powerOnByte font a := by
        apply Memory.read_of_lt
        intro p hp
        rcases List.mem_cons.mp hp with rfl | hp
        · exact hlt
        · exact Nat.lt_trans hlt (hk p hp)
      rw [Memory.read_cons]
      by_cases hc : a = c
      · subst hc
        by_cases hb : b = powerOnByte font a <;> simp [hb, hread]
      · simp [hc]
    · split
      · rename_i _ hak
        subst hak
        have hread : Memory.read font m a = powerOnByte font a := Memory.read_of_lt font m a hk
        rw [Memory.read_cons]
        by_cases hc : a = c
        · by_cases hb : b = powerOnByte font a
          · subst hc; simp [hb, hread]
          · subst hc; simp [hb]
        · simp [hc, Memory.read]
      · rename_i _ hak
        rw [Memory.read]
        by_cases hkc : k = c
        · have : a ≠ c := by omega
          simp [hkc, this, Memory.read]
        · rw [if_neg hkc, ih hm]
          simp [Memory.read, hkc]

theorem Memory.mem_write (font : Fontset) (m : Memory) (a : Nat) (b : Byte) (p : Host.Cell)
    (h : p ∈ Memory.write font m a b) : p ∈ m ∨ (p = (a, b) ∧ b ≠ powerOnByte font a) := by
  have hcons : ∀ r : Memory, p ∈ Memory.cons font a b r → p ∈ r ∨ (p = (a, b) ∧ b ≠ powerOnByte font a) := by
    intro r hr
    unfold Memory.cons at hr
    split at hr
    · exact .inl hr
    · rcases List.mem_cons.mp hr with h | h
      · exact .inr ⟨h, by assumption⟩
      · exact .inl h
  induction m with
  | nil => exact hcons _ h
  | cons q m ih =>
    obtain ⟨k, d⟩ := q
    rw [Memory.write] at h
    split at h
    · exact hcons _ h
    · split at h
      · rcases hcons _ h with h | h
        · exact .inl (by simp [h])
        · exact .inr h
      · rcases List.mem_cons.mp h with h | h
        · exact .inl (by simp [h])
        · rcases ih h with h | h
          · exact .inl (by simp [h])
          · exact .inr h

/-- A write inside the address space keeps the canonical form. -/
theorem Memory.write_wf (font : Fontset) (m : Memory) (a : Nat) (b : Byte) (ha : a < memSize)
    (h : Memory.wf font m) : Memory.wf font (Memory.write font m a b) := by
  refine ⟨?_, fun p hp => ?_⟩
  · obtain ⟨h, -⟩ := h
    induction m with
    | nil => unfold Memory.write Memory.cons; split <;> simp
    | cons q m ih =>
      obtain ⟨k, d⟩ := q
      obtain ⟨hk, hm⟩ := List.pairwise_cons.mp h
      rw [Memory.write]
      unfold Memory.cons
      split
      · rename_i hlt
        split
        · exact h
        · rw [List.pairwise_cons]
          refine ⟨fun p hp => ?_, h⟩
          rcases List.mem_cons.mp hp with rfl | hp
          · exact hlt
          · exact Nat.lt_trans hlt (hk p hp)
      · split
        · rename_i _ hak
          subst hak
          split
          · exact hm
          · exact List.pairwise_cons.mpr ⟨hk, hm⟩
        · rename_i hlt hak
          refine List.pairwise_cons.mpr ⟨fun p hp => ?_, ih hm⟩
          rcases Memory.mem_write font m a b p hp with hp | ⟨rfl, -⟩
          · exact hk p hp
          · simp only at hlt hak ⊢; omega
  · rcases Memory.mem_write font m a b p hp with hp | ⟨rfl, hb⟩
    · exact h.2 p hp
    · exact ⟨ha, hb⟩

/-! ### The state's memory -/

theorem State.poke_inv (s : State) (a : Nat) (b : Byte) (h : s.Inv) : (s.poke a b).Inv := by
  unfold State.poke
  split
  · exact Memory.write_wf _ _ _ _ ‹_› h
  · exact h

/-- A read after a poke, the same address or another. -/
theorem State.peek_poke (s : State) (a : Nat) (b : Byte) (c : Nat) (h : s.Inv) (ha : a < memSize) :
    (s.poke a b).peek c = if a = c then b else s.peek c := by
  unfold State.poke State.peek
  rw [if_pos ha]
  exact Memory.read_write _ _ _ _ _ h.1

theorem State.peek_poke_ne (s : State) (a : Nat) (b : Byte) (c : Nat) (h : s.Inv) (hne : a ≠ c) :
    (s.poke a b).peek c = s.peek c := by
  by_cases ha : a < memSize
  · rw [State.peek_poke s a b c h ha, if_neg hne]
  · unfold State.poke; rw [if_neg ha]

theorem State.writeByte_inv (s : State) (addr : Nat) (b : Byte) (h : s.Inv) : (s.writeByte addr b).Inv :=
  State.poke_inv s _ b h

theorem State.storeBytes_inv (s : State) (base : Nat) (bs : List Byte) (h : s.Inv) : (s.storeBytes base bs).Inv := by
  induction bs generalizing s base with
  | nil => exact h
  | cons b bs ih => exact ih _ _ (State.writeByte_inv s base b h)

theorem State.pokeBytes_inv (s : State) (base : Nat) (bs : List Byte) (h : s.Inv) : (s.pokeBytes base bs).Inv := by
  induction bs generalizing s base with
  | nil => exact h
  | cons b bs ih => exact ih _ _ (State.poke_inv s base b h)

theorem State.placeWord_inv (s : State) (hi lo : Byte) (h : s.Inv) : (s.placeWord hi lo).Inv :=
  State.storeBytes_inv s _ _ h

theorem State.loadImage_inv (s : State) (bs : List Byte) (h : s.Inv) : (s.loadImage bs).Inv := by
  unfold State.loadImage
  split
  · exact State.pokeBytes_inv s _ bs h
  · exact h

theorem State.powerOn_inv (config : Config) (draws : Nat) : (State.powerOn config draws).Inv := by
  simp [State.Inv, Memory.wf, State.powerOn]

theorem State.physical_congr {s t : State} (h : t.config = s.config) (addr : Nat) : t.physical addr = s.physical addr := by
  simp [State.physical, h]

/-- An access that the check lets pass goes to a byte of memory. -/
theorem State.physical_lt (s : State) (addr : Nat) (h : s.config.memOob = .wrap ∨ addr < memSize) :
    s.physical addr < memSize := by
  unfold State.physical
  split
  · rename_i hf; rcases h with h | h
    · rw [hf] at h; cases h
    · exact h
  · exact Nat.mod_lt _ (by decide)

/-- Every byte outside the stored ones reads as before. -/
theorem State.peek_storeBytes_other (s : State) (base : Nat) (bs : List Byte) (c : Nat) (h : s.Inv)
    (hc : ∀ k, k < bs.length → s.physical (base + k) ≠ c) : (s.storeBytes base bs).peek c = s.peek c := by
  induction bs generalizing s base with
  | nil => rfl
  | cons b bs ih =>
    rw [State.storeBytes, ih _ _ (State.writeByte_inv s base b h)]
    · exact State.peek_poke_ne s _ b c h (by simpa using hc 0 (by simp))
    · intro k hk
      rw [State.physical_congr (s := s) (by simp [State.writeByte])]
      have := hc (k + 1) (by simp; omega)
      rwa [show base + 1 + k = base + (k + 1) by omega]

/-- Two accesses fewer than 4096 bytes apart that the check lets pass go to different bytes. -/
theorem State.physical_inj (s : State) (base i j : Nat) (hi : i < memSize) (hj : j < memSize)
    (h : s.physical (base + i) = s.physical (base + j)) : i = j := by
  unfold State.physical at h
  unfold memSize at *
  split at h <;> omega

/-- The byte at place `k` of the list is what its address reads after the bytes are stored. -/
theorem State.peek_storeBytes (s : State) (base : Nat) (bs : List Byte) (k : Nat) (h : s.Inv)
    (hk : k < bs.length) (hlen : bs.length ≤ memSize) (hr : s.config.memOob = .wrap ∨ base + bs.length ≤ memSize) :
    (s.storeBytes base bs).peek (s.physical (base + k)) = bs[k] := by
  induction bs generalizing s base k with
  | nil => simp at hk
  | cons b bs ih =>
    simp only [List.length_cons] at hk hlen hr
    have hcfg : (s.writeByte base b).config = s.config := by simp [State.writeByte]
    rw [State.storeBytes]
    cases k with
    | zero =>
      rw [State.peek_storeBytes_other _ _ _ _ (State.writeByte_inv s base b h)]
      · have := State.physical_lt s base (hr.imp id (by omega))
        simp [State.writeByte, State.peek_poke s _ b _ h this]
      · intro j hj he
        rw [State.physical_congr hcfg, show base + 1 + j = base + (j + 1) by omega] at he
        have := State.physical_inj s base (j + 1) 0 (by omega) (by decide) he
        omega
    | succ k =>
      have := ih (s.writeByte base b) (base + 1) k (State.writeByte_inv s base b h) (by omega) (by omega)
        (by rw [hcfg]; exact hr.imp id (by omega))
      rw [State.physical_congr hcfg, show base + 1 + k = base + (k + 1) by omega] at this
      simpa using this

end Sys2Proof.Machine
end

