-- ==== Sys2Proof/Laws/Ops.lean ====
section
/-! SUPPORT. What each shared operation can do, said once: the address check, raising, the stack, the flag write, the
register list, the keys. -/

namespace Sys2Proof.Machine

/-! ### Addresses of an executing instruction -/

/-- The address of the executing instruction is where its step began. -/
theorem State.rewind_advance (s : State) : s.advance.rewind = s := by
  cases s; simp [State.advance, State.rewind]

theorem State.instrAddr_advance (s : State) : s.advance.instrAddr = s.pc := by
  simp [State.instrAddr]

/-! ### The address check -/

/-- The first address of `count` that is out of range, if one is, is the base or 4096. -/
theorem State.find_outOfRange (base count : Nat) :
    ((List.range count).map (base + ·)).find? (fun addr => decide (memSize ≤ addr)) =
      if memSize < base + count ∧ 0 < count then some (max base memSize) else none := by
  induction count with
  | zero => simp
  | succ n ih =>
    rw [List.range_succ, List.map_append, List.find?_append, ih]
    unfold memSize
    by_cases h1 : 4096 < base + n ∧ 0 < n
    · rw [if_pos h1, if_pos (by omega)]; rfl
    · rw [if_neg h1]
      by_cases h2 : 4096 ≤ base + n
      · have : max base 4096 = base + n := by omega
        rw [if_pos (by omega), this]; simp [h2]
      · rw [if_neg (by omega)]; simp; omega

/-- The address check finds nothing exactly when no access is out of range (20 R66). -/
theorem State.firstOutOfRange_eq_none (s : State) (base count : Nat) :
    s.firstOutOfRange base count = none ↔ s.config.memOob = .wrap ∨ count = 0 ∨ base + count ≤ memSize := by
  unfold State.firstOutOfRange
  split
  · rename_i h; simp [h]
  · rename_i h
    rw [State.find_outOfRange]
    simp [h]; omega

/-- The address check answers the lowest address of 4096 or more (20 R66). -/
theorem State.firstOutOfRange_eq_some (s : State) (base count addr : Nat) :
    s.firstOutOfRange base count = some addr ↔
      s.config.memOob = .fault ∧ 0 < count ∧ memSize < base + count ∧ addr = max base memSize := by
  unfold State.firstOutOfRange
  split
  · rename_i h; simp [h]
  · rename_i h
    rw [State.find_outOfRange]
    simp [h]; omega

/-- What a checked operation answers: its effect, or the fault of the lowest address with everything else as it was. -/
theorem State.checkedAtIndex_cases (s : State) (count : Nat) (go : State) :
    (s.firstOutOfRange s.index.toNat count = none ∧ s.checkedAtIndex count go = .next go) ∨
    (∃ addr, s.firstOutOfRange s.index.toNat count = some addr ∧
      s.checkedAtIndex count go = s.raise (.memOutOfRange addr s.instrAddr)) := by
  unfold State.checkedAtIndex
  split
  · exact .inr ⟨_, ‹_›, rfl⟩
  · exact .inl ⟨‹_›, rfl⟩

theorem State.fetchFault_eq_none (s : State) :
    s.fetchFault = none ↔ s.config.memOob = .wrap ∨ s.pc.toNat + 2 ≤ memSize := by
  unfold State.fetchFault
  rw [Option.map_eq_none_iff, State.firstOutOfRange_eq_none]
  simp

theorem State.fetchFault_eq_some (s : State) (f : Fault) :
    s.fetchFault = some f ↔
      s.config.memOob = .fault ∧ memSize < s.pc.toNat + 2 ∧ f = .memOutOfRange (max s.pc.toNat memSize) s.pc := by
  unfold State.fetchFault
  rw [Option.map_eq_some_iff]
  constructor
  · rintro ⟨addr, h, rfl⟩
    obtain ⟨h1, -, h2, rfl⟩ := (State.firstOutOfRange_eq_some ..).mp h
    exact ⟨h1, h2, rfl⟩
  · rintro ⟨h1, h2, rfl⟩
    exact ⟨_, (State.firstOutOfRange_eq_some ..).mpr ⟨h1, by decide, h2, rfl⟩, rfl⟩

/-- What a step can do, by the state of the fault register, the fetch and the decoder (30 R90). -/
theorem step_cases (s : State) :
    (∃ f, s.fault = some f ∧ step s = .fault f) ∨
    (s.fault = none ∧ ∃ f, s.fetchFault = some f ∧ step s = .next (s.recordFault f)) ∨
    (s.fault = none ∧ s.fetchFault = none ∧ ∃ i rest, decode s.fetchBytes = .instr i rest ∧ step s = exec i s.advance) ∨
    (s.fault = none ∧ s.fetchFault = none ∧ ∃ w, decode s.fetchBytes = .rejected w ∧ step s = .next s.advance) := by
  unfold step
  cases hf : s.fault with
  | some f => exact .inl ⟨f, rfl, rfl⟩
  | none =>
    cases hff : s.fetchFault with
    | some f => exact .inr (.inl ⟨rfl, f, rfl, rfl⟩)
    | none =>
      cases hd : decode s.fetchBytes with
      | instr i rest => exact .inr (.inr (.inl ⟨rfl, rfl, i, rest, rfl, rfl⟩))
      | rejected w => exact .inr (.inr (.inr ⟨rfl, rfl, w, rfl, rfl⟩))

/-! ### The stack -/

/-- A push answers a state exactly when SP is below 16, and then only the slot and SP change (40 R121). -/
theorem State.push_eq_some (s t : State) (w : Word) :
    s.push w = some t ↔
      ∃ h : s.sp.val < 16, t = { s with stack := s.stack.set s.sp.val w, sp := ⟨s.sp.val + 1, by omega⟩ } := by
  unfold State.push
  split
  · rename_i h; simp [h, eq_comm]
  · rename_i h; simp [h]

theorem State.push_eq_none (s : State) (w : Word) : s.push w = none ↔ s.sp.val = 16 := by
  unfold State.push
  split
  · rename_i h; simp; omega
  · rename_i h; simp; omega

/-- A pop answers the word below SP, and only SP changes (40 R120, 10 R43). -/
theorem State.pop_eq_some (s t : State) (w : Word) :
    s.pop = some (w, t) ↔
      ∃ _ : s.sp.val ≠ 0, w = s.stack[s.sp.val - 1] ∧ t = { s with sp := ⟨s.sp.val - 1, by omega⟩ } := by
  unfold State.pop
  split
  · rename_i h; simp [h]
  · rename_i h; simp [h, eq_comm]

theorem State.pop_eq_none (s : State) : s.pop = none ↔ s.sp.val = 0 := by
  unfold State.pop
  split
  · rename_i h; simp [h]
  · rename_i h; simp [h]

/-- A return with a word on the stack (40 R120). -/
theorem execRet_of_pos (s : State) (h : s.sp.val ≠ 0) :
    execRet s = .next (State.jump { s with sp := ⟨s.sp.val - 1, by omega⟩ } s.stack[s.sp.val - 1]) := by
  unfold execRet
  rw [(State.pop_eq_some s _ _).mpr ⟨h, rfl, rfl⟩]

/-- A call with a free slot (40 R121). -/
theorem execCall_of_lt (nnn : Addr12) (s : State) (h : s.sp.val < 16) :
    execCall nnn s = .next (State.jump
      { s with stack := s.stack.set s.sp.val s.pc, sp := ⟨s.sp.val + 1, by omega⟩ } (addrOperand nnn)) := by
  unfold execCall
  rw [(State.push_eq_some s _ s.pc).mpr ⟨h, rfl⟩]

/-! ### The flag write -/

/-- A flag-producing member raises under `Refuse` with x = 15, and else writes the result and then the flag (42 R150). -/
theorem State.writeWithFlag_cases (s : State) (x : Reg) (result : Byte) (flag : Bool) :
    ((x = Reg.vf ∧ s.config.vfDest = .refuse) ∧
      s.writeWithFlag x result flag = s.raise (.vfDestRefused s.instrAddr)) ∨
    (¬(x = Reg.vf ∧ s.config.vfDest = .refuse) ∧
      s.writeWithFlag x result flag = .next ((s.writeV x result).writeV Reg.vf (flagByte flag))) := by
  unfold State.writeWithFlag
  split
  · exact .inl ⟨‹_›, rfl⟩
  · exact .inr ⟨‹_›, rfl⟩

/-! ### Register lists -/

theorem State.length_regsThrough (s : State) (x : Reg) : (s.regsThrough x).length = x.val + 1 := by
  simp [State.regsThrough]

theorem State.getElem_regsThrough (s : State) (x : Reg) (k : Nat) (h : k < (s.regsThrough x).length) :
    (s.regsThrough x)[k] = s.readV ⟨k, by rw [State.length_regsThrough] at h; omega⟩ := by
  simp [State.regsThrough, State.readV]

/-- Loading the first `n` registers from the bytes at `I`. -/
theorem State.readV_loadFold (s : State) (n : Nat) (hn : n ≤ 16) (q : Reg) :
    ((List.range n).foldl (fun t k => t.writeV (Fin.ofNat 16 k) (s.readByte (s.index.toNat + k))) s).readV q =
      if q.val < n then s.readByte (s.index.toNat + q.val) else s.readV q := by
  induction n with
  | zero => simp
  | succ n ih =>
    rw [List.range_succ, List.foldl_append]
    simp only [List.foldl_cons, List.foldl_nil]
    rw [State.readV_writeV, ih (by omega)]
    have hv : (Fin.ofNat 16 n).val = n := by simp [Fin.ofNat]; omega
    by_cases hq : q = Fin.ofNat 16 n
    · have : q.val = n := by rw [hq, hv]
      rw [if_pos hq, if_pos (by omega), this]
    · have : q.val ≠ n := fun e => hq (Fin.ext (by rw [hv, e]))
      rw [if_neg hq]
      by_cases hlt : q.val < n
      · rw [if_pos hlt, if_pos (by omega)]
      · rw [if_neg hlt, if_neg (by omega)]

/-- Fx65 loads V0 to Vx and no other register (43 R178). -/
theorem State.readV_loadRegsThrough (s : State) (x q : Reg) :
    (s.loadRegsThrough x).readV q = if q.val ≤ x.val then s.readByte (s.index.toNat + q.val) else s.readV q := by
  unfold State.loadRegsThrough
  rw [State.readV_loadFold s (x.val + 1) (by omega)]
  simp

/-- Writing registers one after another changes the register file alone. -/
theorem State.foldl_writeV_eq (u : State) (l : List Nat) (f : Nat → Byte) :
    ∃ v, l.foldl (fun t k => t.writeV (Fin.ofNat 16 k) (f k)) u = { u with v := v } := by
  induction l generalizing u with
  | nil => exact ⟨u.v, rfl⟩
  | cons k l ih =>
    obtain ⟨v, hv⟩ := ih (u.writeV (Fin.ofNat 16 k) (f k))
    exact ⟨v, by rw [List.foldl_cons, hv]; rfl⟩

theorem State.loadRegsThrough_eq (s : State) (x : Reg) : ∃ v, s.loadRegsThrough x = { s with v := v } :=
  State.foldl_writeV_eq s _ _

/-! ### The operands -/

theorem length_bcdDigits (b : Byte) : (bcdDigits b).length = 3 := rfl

theorem keyOperand_eq_none (b : Byte) : keyOperand b = none ↔ 16 ≤ b.toNat := by
  unfold keyOperand
  split <;> simp <;> omega

theorem keyOperand_eq_some (b : Byte) (k : Key) : keyOperand b = some k ↔ b.toNat = k.val := by
  unfold keyOperand
  split
  · simp [Fin.ext_iff]
  · simp; omega

theorem addrOperand_toNat (nnn : Addr12) : (addrOperand nnn).toNat = nnn.toNat := by
  simp [addrOperand]; omega

theorem fontAddress_toNat (b : Byte) : (fontAddress b).toNat = b.toNat * 5 := by
  simp [fontAddress]; omega

/-! ### The keypad -/

/-- No key is pressed exactly when the scan finds none (45 R214). -/
theorem State.lowestPressed_eq_none (s : State) : s.lowestPressed = none ↔ ∀ k, s.pressed k = false := by
  simp [State.lowestPressed]

/-- The scan finds the pressed key of the least number (45 R214). -/
theorem State.lowestPressed_eq_some (s : State) (k : Key) :
    s.lowestPressed = some k ↔ s.pressed k = true ∧ ∀ j, j < k → s.pressed j = false := by
  unfold State.lowestPressed
  rw [List.find?_eq_some_iff_getElem]
  constructor
  · rintro ⟨hk, i, hi, he, hlt⟩
    refine ⟨hk, fun j hj => ?_⟩
    simp at he
    subst he
    have := hlt j.val (by simpa [Fin.lt_def] using hj)
    simpa using this
  · rintro ⟨hk, hlt⟩
    refine ⟨hk, k.val, by simp, by simp, fun j hj => ?_⟩
    have := hlt ⟨j, by omega⟩ (by simpa [Fin.lt_def] using hj)
    simpa using this

/-! ### The framebuffer -/

/-- A cell after a write, the same cell or another (10 R49). -/
theorem Framebuffer.get_set (fb : Framebuffer) (x x' : Col) (y y' : Row) (lit : Bool) :
    Framebuffer.get (Framebuffer.set fb x y lit) x' y' =
      if x' = x ∧ y' = y then lit else Framebuffer.get fb x' y' := by
  unfold Framebuffer.get Framebuffer.set
  by_cases hy : y' = y
  · subst hy
    by_cases hx : x' = x
    · subst hx; simp
    · have : x.val ≠ x'.val := fun e => hx (Fin.ext e.symm)
      simp [hx, this]
  · have : y.val ≠ y'.val := fun e => hy (Fin.ext e.symm)
    simp [hy, this]

theorem Framebuffer.get_clear (x : Col) (y : Row) : Framebuffer.get Framebuffer.clear x y = false := by
  simp [Framebuffer.get, Framebuffer.clear]

/-- One pixel inverts its own cell, leaves the others, and remembers a collision (44 R193). -/
theorem drawPixel_spec (px x' : Col) (py y' : Row) (d : Framebuffer × Bool) :
    Framebuffer.get (drawPixel px py d).1 x' y' =
        (Framebuffer.get d.1 x' y' ^^ decide (x' = px ∧ y' = py)) ∧
      (drawPixel px py d).2 = (d.2 || Framebuffer.get d.1 px py) := by
  unfold drawPixel
  by_cases h : x' = px ∧ y' = py
  · obtain ⟨rfl, rfl⟩ := h
    cases hg : Framebuffer.get d.1 x' y' <;> simp [Framebuffer.get_set]
  · cases hg : Framebuffer.get d.1 px py <;> simp [Framebuffer.get_set, h]

/-! ### Host operations -/

theorem tickDown_toNat (b : Byte) : (tickDown b).toNat = b.toNat - 1 := by
  unfold tickDown
  split
  · rename_i h
    have h1 : BitVec.toNat (1 : Byte) = 1 := rfl
    rw [BitVec.toNat_sub, h1]; omega
  · omega

/-- What a host operation can do: a stopped machine answers its fault, another goes to the operation's effect (60 R303). -/
theorem hostOp_cases (op : HostOp) (s : State) :
    (∃ f, s.fault = some f ∧ hostOp op s = .fault f) ∨ (s.fault = none ∧ hostOp op s = .next (op.effect s)) := by
  unfold hostOp
  split
  · exact .inl ⟨_, ‹_›, rfl⟩
  · exact .inr ⟨‹_›, rfl⟩

theorem HostOp.effect_inv (op : HostOp) (s : State) (h : s.Inv) : (op.effect s).Inv := by
  cases op with
  | tickTimers => exact h
  | setKey i p => simp only [HostOp.effect, State.setKey]; split <;> exact h
  | load bs => exact State.loadImage_inv s bs h
  | reset => exact State.powerOn_inv _ _

end Sys2Proof.Machine
end

