-- ==== Sys2Proof/Laws/Frames.lean ====
section
/-! SUPPORT. The frame of each shared operation: what it leaves as it was. -/

namespace Sys2Proof.Machine

/-- Raising writes FAULT, puts `pc` back, and leaves everything else (60 R302). -/
theorem State.raise_eq (s : State) (f : Fault) : s.raise f = .next (raisedAt s f) := rfl

theorem State.instrAddr_eq (s : State) : s.instrAddr = s.pc - 2 := rfl

/-- A state that differs in `v`, `pc` and `draws` alone is framed by the registers that read differently. -/
theorem onlyRegs_of_eq {s t : State} {ws : List Reg} (hv : SameRegsBut ws s t)
    (h : t = { s with v := t.v, pc := t.pc, draws := t.draws }) : OnlyRegs ws s t := by
  refine ⟨hv, fun a _ => ?_, ?_, ⟨?_, ?_⟩, ⟨?_, ?_⟩, ?_, ?_, ?_, ?_⟩ <;> rw [h]
  exact State.peek_congr rfl rfl a

theorem onlyRegs_refl (s : State) : OnlyRegs [] s s := onlyRegs_of_eq (fun _ _ => rfl) rfl

theorem onlyRegs_jump (s : State) (w : Word) : OnlyRegs [] s (s.jump w) := onlyRegs_of_eq (fun _ _ => rfl) rfl

theorem onlyRegs_rewind (s : State) : OnlyRegs [] s s.rewind := onlyRegs_of_eq (fun _ _ => rfl) rfl

theorem onlyRegs_skipIf (s : State) (c : Bool) : OnlyRegs [] s (s.skipIf c) := by
  cases c
  · exact onlyRegs_refl s
  · exact onlyRegs_of_eq (fun _ _ => rfl) rfl

theorem sameRegsBut_writeV (s : State) (r : Reg) (b : Byte) : SameRegsBut [r] s (s.writeV r b) :=
  fun q hq => State.readV_writeV_ne s r q b (by simpa using hq)

theorem onlyRegs_writeV (s : State) (r : Reg) (b : Byte) : OnlyRegs [r] s (s.writeV r b) :=
  onlyRegs_of_eq (sameRegsBut_writeV s r b) rfl

/-- The result and then the flag: no register but those two changes (42 R151). -/
theorem onlyRegs_writeV_writeV (s : State) (x r : Reg) (b c : Byte) :
    OnlyRegs [x, r] s ((s.writeV x b).writeV r c) := by
  refine onlyRegs_of_eq (fun q hq => ?_) rfl
  simp only [List.mem_cons, List.not_mem_nil, or_false, not_or] at hq
  rw [State.readV_writeV_ne _ _ _ _ hq.2, State.readV_writeV_ne _ _ _ _ hq.1]

/-- Cxnn writes its register and takes a draw (41 R145). -/
theorem onlyRegs_rnd (s : State) (r : Byte) (x : Reg) (nn : Byte) :
    OnlyRegs [x] s (rndWith r x nn s).advanceDraws :=
  onlyRegs_of_eq (sameRegsBut_writeV s x (r &&& nn)) rfl

theorem onlyRegs_loadRegsThrough (s : State) (x : Reg) :
    OnlyRegs ((List.finRange 16).filter (fun k => decide (k ≤ x))) s (s.loadRegsThrough x) := by
  obtain ⟨v, hv⟩ := State.loadRegsThrough_eq s x
  refine onlyRegs_of_eq (fun q hq => ?_) (by rw [hv])
  rw [State.readV_loadRegsThrough, if_neg]
  exact fun hle => hq (List.mem_filter.mpr ⟨List.mem_finRange q, decide_eq_true hle⟩)

theorem onlyIndex_writeIndex (s : State) (w : Word) : OnlyIndex s (s.writeIndex w) :=
  ⟨fun _ _ => rfl, fun _ _ => rfl, rfl, ⟨rfl, rfl⟩, ⟨rfl, rfl⟩, rfl, rfl, rfl, rfl⟩

/-- A store changes no byte but those at the physical addresses of the bytes stored (20 R64, R66). -/
theorem onlyMemory_storeBytes (s : State) (base : Nat) (bs : List Byte) (h : s.Inv) :
    OnlyMemory ((List.range bs.length).map (fun k => s.physical (base + k))) s (s.storeBytes base bs) := by
  refine ⟨fun r _ => State.readV_congr (State.storeBytes_v s base bs) r, fun a ha => ?_,
    State.storeBytes_index s base bs, State.storeBytes_pc s base bs,
    ⟨State.storeBytes_stack s base bs, State.storeBytes_sp s base bs⟩,
    ⟨State.storeBytes_dt s base bs, State.storeBytes_st s base bs⟩, State.storeBytes_fb s base bs,
    State.storeBytes_keys s base bs, State.storeBytes_config s base bs, State.storeBytes_fault s base bs⟩
  refine State.peek_storeBytes_other s base bs a h (fun k hk he => ha ?_)
  exact List.mem_map.mpr ⟨k, List.mem_range.mpr hk, he⟩

end Sys2Proof.Machine
end

