-- ==== Sys2Proof/Laws/PerInstr.lean ====
section
/-! SUPPORT. One lemma per instruction: its encoding stands in its row of Table 11 (30 R96). -/

namespace Sys2Proof.Laws.RowMatch

/-- The word of the instruction agrees with its row of Table 11 in every fixed bit. -/
def Statement (i : Instr) : Prop := i.row.covers (encode i)

theorem cls : Statement (.cls) := by
  unfold Statement OpcodeRow.covers; decide

theorem ret : Statement (.ret) := by
  unfold Statement OpcodeRow.covers; decide

theorem jp (nnn : Addr12) : Statement (.jp nnn) :=
  (and_F000 _ 0x1).mpr (fieldO_encodeAddr _ _)

theorem call (nnn : Addr12) : Statement (.call nnn) :=
  (and_F000 _ 0x2).mpr (fieldO_encodeAddr _ _)

theorem seImm (x : Reg) (nn : Byte) : Statement (.seImm x nn) :=
  (and_F000 _ 0x3).mpr (fieldO_encodeXNN _ _ _)

theorem sneImm (x : Reg) (nn : Byte) : Statement (.sneImm x nn) :=
  (and_F000 _ 0x4).mpr (fieldO_encodeXNN _ _ _)

theorem seReg (x y : Reg) : Statement (.seReg x y) :=
  (and_F00F _ 0x5 0x0).mpr ⟨fieldO_encodeXYN _ _ _ _, fieldN_encodeXYN _ _ _ _⟩

theorem ldImm (x : Reg) (nn : Byte) : Statement (.ldImm x nn) :=
  (and_F000 _ 0x6).mpr (fieldO_encodeXNN _ _ _)

theorem addImm (x : Reg) (nn : Byte) : Statement (.addImm x nn) :=
  (and_F000 _ 0x7).mpr (fieldO_encodeXNN _ _ _)

theorem ldReg (x y : Reg) : Statement (.ldReg x y) :=
  (and_F00F _ 0x8 0x0).mpr ⟨fieldO_encodeXYN _ _ _ _, fieldN_encodeXYN _ _ _ _⟩

theorem orReg (x y : Reg) : Statement (.orReg x y) :=
  (and_F00F _ 0x8 0x1).mpr ⟨fieldO_encodeXYN _ _ _ _, fieldN_encodeXYN _ _ _ _⟩

theorem andReg (x y : Reg) : Statement (.andReg x y) :=
  (and_F00F _ 0x8 0x2).mpr ⟨fieldO_encodeXYN _ _ _ _, fieldN_encodeXYN _ _ _ _⟩

theorem xorReg (x y : Reg) : Statement (.xorReg x y) :=
  (and_F00F _ 0x8 0x3).mpr ⟨fieldO_encodeXYN _ _ _ _, fieldN_encodeXYN _ _ _ _⟩

theorem addReg (x y : Reg) : Statement (.addReg x y) :=
  (and_F00F _ 0x8 0x4).mpr ⟨fieldO_encodeXYN _ _ _ _, fieldN_encodeXYN _ _ _ _⟩

theorem subReg (x y : Reg) : Statement (.subReg x y) :=
  (and_F00F _ 0x8 0x5).mpr ⟨fieldO_encodeXYN _ _ _ _, fieldN_encodeXYN _ _ _ _⟩

theorem shr (x y : Reg) : Statement (.shr x y) :=
  (and_F00F _ 0x8 0x6).mpr ⟨fieldO_encodeXYN _ _ _ _, fieldN_encodeXYN _ _ _ _⟩

theorem subnReg (x y : Reg) : Statement (.subnReg x y) :=
  (and_F00F _ 0x8 0x7).mpr ⟨fieldO_encodeXYN _ _ _ _, fieldN_encodeXYN _ _ _ _⟩

theorem shl (x y : Reg) : Statement (.shl x y) :=
  (and_F00F _ 0x8 0xE).mpr ⟨fieldO_encodeXYN _ _ _ _, fieldN_encodeXYN _ _ _ _⟩

theorem sneReg (x y : Reg) : Statement (.sneReg x y) :=
  (and_F00F _ 0x9 0x0).mpr ⟨fieldO_encodeXYN _ _ _ _, fieldN_encodeXYN _ _ _ _⟩

theorem ldI (nnn : Addr12) : Statement (.ldI nnn) :=
  (and_F000 _ 0xA).mpr (fieldO_encodeAddr _ _)

theorem jpV0 (nnn : Addr12) : Statement (.jpV0 nnn) :=
  (and_F000 _ 0xB).mpr (fieldO_encodeAddr _ _)

theorem rnd (x : Reg) (nn : Byte) : Statement (.rnd x nn) :=
  (and_F000 _ 0xC).mpr (fieldO_encodeXNN _ _ _)

theorem drw (x y : Reg) (n : Nat) : Statement (.drw x y n) :=
  (and_F000 _ 0xD).mpr (fieldO_encodeXYN _ _ _ _)

theorem skp (x : Reg) : Statement (.skp x) :=
  (and_F0FF _ 0xE 0x9E).mpr ⟨fieldO_encodeXNN _ _ _, fieldNN_encodeXNN _ _ _⟩

theorem sknp (x : Reg) : Statement (.sknp x) :=
  (and_F0FF _ 0xE 0xA1).mpr ⟨fieldO_encodeXNN _ _ _, fieldNN_encodeXNN _ _ _⟩

theorem ldVxDt (x : Reg) : Statement (.ldVxDt x) :=
  (and_F0FF _ 0xF 0x07).mpr ⟨fieldO_encodeXNN _ _ _, fieldNN_encodeXNN _ _ _⟩

theorem ldVxK (x : Reg) : Statement (.ldVxK x) :=
  (and_F0FF _ 0xF 0x0A).mpr ⟨fieldO_encodeXNN _ _ _, fieldNN_encodeXNN _ _ _⟩

theorem ldDtVx (x : Reg) : Statement (.ldDtVx x) :=
  (and_F0FF _ 0xF 0x15).mpr ⟨fieldO_encodeXNN _ _ _, fieldNN_encodeXNN _ _ _⟩

theorem ldStVx (x : Reg) : Statement (.ldStVx x) :=
  (and_F0FF _ 0xF 0x18).mpr ⟨fieldO_encodeXNN _ _ _, fieldNN_encodeXNN _ _ _⟩

theorem addI (x : Reg) : Statement (.addI x) :=
  (and_F0FF _ 0xF 0x1E).mpr ⟨fieldO_encodeXNN _ _ _, fieldNN_encodeXNN _ _ _⟩

theorem ldF (x : Reg) : Statement (.ldF x) :=
  (and_F0FF _ 0xF 0x29).mpr ⟨fieldO_encodeXNN _ _ _, fieldNN_encodeXNN _ _ _⟩

theorem ldB (x : Reg) : Statement (.ldB x) :=
  (and_F0FF _ 0xF 0x33).mpr ⟨fieldO_encodeXNN _ _ _, fieldNN_encodeXNN _ _ _⟩

theorem ldMemVx (x : Reg) : Statement (.ldMemVx x) :=
  (and_F0FF _ 0xF 0x55).mpr ⟨fieldO_encodeXNN _ _ _, fieldNN_encodeXNN _ _ _⟩

theorem ldVxMem (x : Reg) : Statement (.ldVxMem x) :=
  (and_F0FF _ 0xF 0x65).mpr ⟨fieldO_encodeXNN _ _ _, fieldNN_encodeXNN _ _ _⟩

end Sys2Proof.Laws.RowMatch
end

