-- ==== Sys2Proof/Laws/Shapes.lean ====
section
/-! SUPPORT. What `exec` can do to a state, said once for each shared operation and once over all instructions; the
whole-machine statements follow from it by cases. -/

namespace Sys2Proof.Machine

/-- A store changes memory alone. -/
theorem State.storeBytes_eq (s : State) (base : Nat) (bs : List Byte) : ∃ m, s.storeBytes base bs = { s with mem := m } := by
  induction bs generalizing s base with
  | nil => exact ⟨s.mem, rfl⟩
  | cons b bs ih =>
    obtain ⟨m, hm⟩ := ih (s.writeByte base b) (base + 1)
    rw [State.storeBytes, hm]
    unfold State.writeByte State.poke
    split <;> exact ⟨m, rfl⟩

/-- The host's copy changes memory alone (70 R407). -/
theorem State.pokeBytes_eq (s : State) (base : Nat) (bs : List Byte) : ∃ m, s.pokeBytes base bs = { s with mem := m } := by
  induction bs generalizing s base with
  | nil => exact ⟨s.mem, rfl⟩
  | cons b bs ih =>
    obtain ⟨m, hm⟩ := ih (s.poke base b) (base + 1)
    rw [State.pokeBytes, hm]
    unfold State.poke
    split <;> exact ⟨m, rfl⟩

/-- Every byte after the host's copy: the copied ones inside its range, the old ones outside (70 R407). -/
theorem State.peek_pokeBytes (s : State) (base : Nat) (bs : List Byte) (h : s.Inv) (hfit : base + bs.length ≤ memSize)
    (a : Nat) : (s.pokeBytes base bs).peek a =
      if hin : base ≤ a ∧ a < base + bs.length then bs[a - base] else s.peek a := by
  induction bs generalizing s base with
  | nil => rw [dif_neg (by simp)]; rfl
  | cons b bs ih =>
    simp only [List.length_cons] at hfit ⊢
    rw [State.pokeBytes, ih _ _ (State.poke_inv s base b h) (by omega), State.peek_poke s _ _ _ h (by omega)]
    by_cases hrest : base + 1 ≤ a ∧ a < base + 1 + bs.length
    · rw [dif_pos hrest, dif_pos (by omega)]
      simp only [show a - base = a - (base + 1) + 1 by omega, List.getElem_cons_succ]
    · rw [dif_neg hrest]
      by_cases hb : base = a
      · subst hb; simp
      · rw [if_neg hb, dif_neg (by omega)]

/-! ### The operations that can raise -/

theorem State.checkedAtIndex_next {s t : State} {count : Nat} {go : State} (h : s.checkedAtIndex count go = .next t) :
    (s.config.memOob = .fault ∧ memSize < s.index.toNat + count ∧
      t = raisedAt s (.memOutOfRange (max s.index.toNat memSize) (s.pc - 2))) ∨ t = go := by
  rcases State.checkedAtIndex_cases s count go with ⟨-, h2⟩ | ⟨addr, h1, h2⟩ <;> rw [h2] at h <;> cases h
  · exact .inr rfl
  · obtain ⟨hf, -, hlt, rfl⟩ := (State.firstOutOfRange_eq_some ..).mp h1
    exact .inl ⟨hf, hlt, rfl⟩

theorem State.writeWithFlag_next {s t : State} {x : Reg} {result : Byte} {flag : Bool}
    (h : s.writeWithFlag x result flag = .next t) :
    (x = Reg.vf ∧ s.config.vfDest = .refuse ∧ t = raisedAt s (.vfDestRefused (s.pc - 2))) ∨
      t = (s.writeV x result).writeV Reg.vf (flagByte flag) := by
  rcases State.writeWithFlag_cases s x result flag with ⟨h1, h2⟩ | ⟨-, h2⟩ <;> rw [h2] at h <;> cases h
  · exact .inl ⟨h1.1, h1.2, rfl⟩
  · exact .inr rfl

theorem State.skipOnKey_next {s t : State} {x : Reg} {want : Bool} (h : s.skipOnKey x want = .next t) :
    (16 ≤ (s.readV x).toNat ∧ t = raisedAt s (.keyIndexOutOfRange (s.pc - 2) (s.readV x))) ∨
      ∃ k : Key, (s.readV x).toNat = k.val ∧ t = s.skipIf (s.pressed k == want) := by
  unfold State.skipOnKey at h
  split at h <;> cases h
  · exact .inl ⟨(keyOperand_eq_none _).mp ‹_›, rfl⟩
  · exact .inr ⟨_, (keyOperand_eq_some _ _).mp ‹_›, rfl⟩

theorem execLdVxK_next {s t : State} {x : Reg} (h : execLdVxK x s = .next t) :
    (∃ k : Key, s.lowestPressed = some k ∧ t = s.writeV x (BitVec.ofNat 8 k.val)) ∨
      (s.lowestPressed = none ∧ t = s.rewind) := by
  unfold execLdVxK at h
  split at h <;> cases h
  · exact .inl ⟨_, ‹_›, rfl⟩
  · exact .inr ⟨‹_›, rfl⟩

theorem execRet_next {s t : State} (h : execRet s = .next t) :
    (s.sp.val = 0 ∧ t = raisedAt s (.stackUnderflow (s.pc - 2))) ∨ t = { s with sp := t.sp, pc := t.pc } := by
  unfold execRet at h
  split at h <;> cases h
  · exact .inl ⟨(State.pop_eq_none s).mp ‹_›, rfl⟩
  · obtain ⟨-, -, h3⟩ := (State.pop_eq_some ..).mp ‹_›
    exact .inr (by rw [h3]; rfl)

theorem execCall_next {s t : State} {nnn : Addr12} (h : execCall nnn s = .next t) :
    (s.sp.val = 16 ∧ t = raisedAt s (.stackOverflow (s.pc - 2))) ∨
      t = { s with sp := t.sp, pc := t.pc, stack := t.stack } := by
  unfold execCall at h
  split at h <;> cases h
  · exact .inl ⟨(State.push_eq_none ..).mp ‹_›, rfl⟩
  · obtain ⟨hlt, h3⟩ := (State.push_eq_some ..).mp ‹_›
    exact .inr (by rw [h3]; rfl)

theorem State.skipIf_or (s : State) (c : Bool) : s.skipIf c = s ∨ s.skipIf c = s.advance := by
  cases c
  · exact .inl rfl
  · exact .inr rfl

/-! ### All instructions -/

/-- What each instruction can do to a state: what it may write, and the one fault it can raise. -/
theorem exec_shape (i : Instr) (s t : State) (h : exec i s = .next t) :
    match i with
    | .cls => t = { s with fb := t.fb }
    | .ret => (s.sp.val = 0 ∧ t = raisedAt s (.stackUnderflow (s.pc - 2))) ∨ t = { s with sp := t.sp, pc := t.pc }
    | .call _ => (s.sp.val = 16 ∧ t = raisedAt s (.stackOverflow (s.pc - 2))) ∨
        t = { s with sp := t.sp, pc := t.pc, stack := t.stack }
    | .jp _ | .jpV0 _ => t = { s with pc := t.pc }
    | .seImm _ _ | .sneImm _ _ | .seReg _ _ | .sneReg _ _ => t = s ∨ t = s.advance
    | .ldImm x _ | .addImm x _ | .ldReg x _ | .orReg x _ | .andReg x _ | .xorReg x _ | .ldVxDt x =>
        ∃ b, t = s.writeV x b
    | .rnd x _ => ∃ b, t = (s.writeV x b).advanceDraws
    | .addReg x _ | .subReg x _ | .shr x _ | .subnReg x _ | .shl x _ =>
        (x = Reg.vf ∧ s.config.vfDest = .refuse ∧ t = raisedAt s (.vfDestRefused (s.pc - 2))) ∨
          ∃ b c, t = (s.writeV x b).writeV Reg.vf c
    | .ldI _ | .addI _ | .ldF _ => t = { s with index := t.index }
    | .drw _ _ _ => ∃ fb c, t = State.writeV { s with fb := fb } Reg.vf c
    | .skp x | .sknp x =>
        (16 ≤ (s.readV x).toNat ∧ t = raisedAt s (.keyIndexOutOfRange (s.pc - 2) (s.readV x))) ∨ t = s ∨ t = s.advance
    | .ldVxK x => (∃ b, t = s.writeV x b) ∨ t = s.rewind
    | .ldDtVx _ => t = { s with dt := t.dt }
    | .ldStVx _ => t = { s with st := t.st }
    | .ldB _ => (s.config.memOob = .fault ∧ memSize < s.index.toNat + 3 ∧
          t = raisedAt s (.memOutOfRange (max s.index.toNat memSize) (s.pc - 2))) ∨
        ∃ bs, t = s.storeBytes s.index.toNat bs
    | .ldMemVx x => (s.config.memOob = .fault ∧ memSize < s.index.toNat + (x.val + 1) ∧
          t = raisedAt s (.memOutOfRange (max s.index.toNat memSize) (s.pc - 2))) ∨
        ∃ bs, t = s.storeBytes s.index.toNat bs
    | .ldVxMem x => (s.config.memOob = .fault ∧ memSize < s.index.toNat + (x.val + 1) ∧
          t = raisedAt s (.memOutOfRange (max s.index.toNat memSize) (s.pc - 2))) ∨ t = s.loadRegsThrough x := by
  cases i with
  | ret => exact execRet_next h
  | call nnn => exact execCall_next h
  | seImm | sneImm | seReg | sneReg => cases h; exact State.skipIf_or _ _
  | skp | sknp => exact (State.skipOnKey_next h).imp id (fun ⟨_, _, ht⟩ => ht ▸ State.skipIf_or _ _)
  | ldVxK => exact (execLdVxK_next h).imp (fun ⟨_, _, ht⟩ => ⟨_, ht⟩) (·.2)
  | addReg | subReg | shr | subnReg | shl => exact (State.writeWithFlag_next h).imp id (fun ht => ⟨_, _, ht⟩)
  | ldB | ldMemVx => exact (State.checkedAtIndex_next h).imp id (fun ht => ⟨_, ht⟩)
  | ldVxMem => exact State.checkedAtIndex_next h
  | drw => cases h; exact ⟨_, _, rfl⟩
  | ldImm | addImm | ldReg | orReg | andReg | xorReg | ldVxDt | rnd => cases h; exact ⟨_, rfl⟩
  | cls | jp | jpV0 | ldI | addI | ldF | ldDtVx | ldStVx => cases h; rfl

end Sys2Proof.Machine
end

