-- ==== Sys2Proof/Tests/Slice0.lean ====
section
/-! SUPPORT. Tests: well-formedness, the words of the spec, one step of each instruction on the vectors of
spec/95_test_vectors.md (each test names its vector), and for every statement with hypotheses a state that meets them. -/

namespace Sys2Proof.Tests

open Sys2Proof Sys2Proof.Machine

/-! ### Helpers -/

/-- The state of a step's answer passes a check. -/
def after (r : Result) (check : State → Bool) : Bool :=
  match r with
  | .next t => check t
  | _ => false

/-- The state of an answer, and the reset state where there is none. -/
def out (r : Result) : State :=
  match r with
  | .next t => t
  | _ => State.reset

/-- The state after reset. -/
def st : State := State.reset

/-- A word at `pc`, high byte first. -/
def word (w : Word) (s : State) : State := s.placeWord (hiByte w) (loByte w)

/-- A byte in memory. -/
def put (a : Nat) (b : Byte) (s : State) : State := s.poke a b

/-- Bytes in memory. -/
def putAll (a : Nat) (bs : List Byte) (s : State) : State := s.pokeBytes a bs

/-- A lit cell. -/
def lit (x : Col) (y : Row) (s : State) : State := { s with fb := Framebuffer.set s.fb x y true }

/-- MEM_OOB = `Wrap`. -/
def wrapped (s : State) : State := { s with config := { s.config with memOob := .wrap } }

/-- VF_DEST = `Refuse`. -/
def refusing (s : State) : State := { s with config := { s.config with vfDest := .refuse } }

/-! ### Well-formedness: the one check, and what it refuses -/

theorem test_wf_refuses_sixteen_rows : (Instr.drw 0 0 16).wellFormed = false := by decide

theorem test_wf_accepts_fifteen_rows : (Instr.drw 0 0 15).wellFormed = true := by decide

/-! ### Words written out bit by bit from Table 11 -/

theorem test_decode_cls : decode [0b00000000, 0b11100000] = .instr .cls [] := by decide
theorem test_decode_ret : decode [0b00000000, 0b11101110] = .instr .ret [] := by decide
theorem test_decode_jp : decode [0b00010010, 0b00110100] = .instr (.jp 0x234) [] := by decide
theorem test_decode_call : decode [0b00100011, 0b01000101] = .instr (.call 0x345) [] := by decide
theorem test_decode_seImm : decode [0b00110010, 0b10000101] = .instr (.seImm 2 0x85) [] := by decide
theorem test_decode_sneImm : decode [0b01000010, 0b00000101] = .instr (.sneImm 2 0x05) [] := by decide
theorem test_decode_seReg : decode [0b01010001, 0b00100000] = .instr (.seReg 1 2) [] := by decide
theorem test_decode_ldImm : decode [0b01101010, 0b01000010] = .instr (.ldImm 10 0x42) [] := by decide
theorem test_decode_addImm : decode [0b01110101, 0b11110000] = .instr (.addImm 5 0xF0) [] := by decide
theorem test_decode_ldReg : decode [0b10000001, 0b00110000] = .instr (.ldReg 1 3) [] := by decide
theorem test_decode_orReg : decode [0b10000001, 0b00100001] = .instr (.orReg 1 2) [] := by decide
theorem test_decode_andReg : decode [0b10001110, 0b00100010] = .instr (.andReg 14 2) [] := by decide
theorem test_decode_xorReg : decode [0b10000001, 0b11110011] = .instr (.xorReg 1 15) [] := by decide
theorem test_decode_addReg : decode [0b10000001, 0b00100100] = .instr (.addReg 1 2) [] := by decide
theorem test_decode_subReg : decode [0b10000001, 0b00100101] = .instr (.subReg 1 2) [] := by decide
theorem test_decode_shr : decode [0b10000100, 0b01010110] = .instr (.shr 4 5) [] := by decide
theorem test_decode_subnReg : decode [0b10000001, 0b00100111] = .instr (.subnReg 1 2) [] := by decide
theorem test_decode_shl : decode [0b10000100, 0b00001110] = .instr (.shl 4 0) [] := by decide
theorem test_decode_sneReg : decode [0b10010001, 0b00100000] = .instr (.sneReg 1 2) [] := by decide
theorem test_decode_ldI : decode [0b10100010, 0b11110000] = .instr (.ldI 0x2F0) [] := by decide
theorem test_decode_jpV0 : decode [0b10110011, 0b00000001] = .instr (.jpV0 0x301) [] := by decide
theorem test_decode_rnd : decode [0b11000011, 0b00001111] = .instr (.rnd 3 0x0F) [] := by decide
theorem test_decode_drw : decode [0b11011111, 0b00000001] = .instr (.drw 15 0 1) [] := by decide
theorem test_decode_skp : decode [0b11100011, 0b10011110] = .instr (.skp 3) [] := by decide
theorem test_decode_sknp : decode [0b11100011, 0b10100001] = .instr (.sknp 3) [] := by decide
theorem test_decode_ldVxDt : decode [0b11110001, 0b00000111] = .instr (.ldVxDt 1) [] := by decide
theorem test_decode_ldVxK : decode [0b11110000, 0b00001010] = .instr (.ldVxK 0) [] := by decide
theorem test_decode_ldDtVx : decode [0b11110000, 0b00010101] = .instr (.ldDtVx 0) [] := by decide
theorem test_decode_ldStVx : decode [0b11110100, 0b00011000] = .instr (.ldStVx 4) [] := by decide
theorem test_decode_addI : decode [0b11110101, 0b00011110] = .instr (.addI 5) [] := by decide
theorem test_decode_ldF : decode [0b11110010, 0b00101001] = .instr (.ldF 2) [] := by decide
theorem test_decode_ldB : decode [0b11110000, 0b00110011] = .instr (.ldB 0) [] := by decide
theorem test_decode_ldMemVx : decode [0b11110010, 0b01010101] = .instr (.ldMemVx 2) [] := by decide
theorem test_decode_ldVxMem : decode [0b11110010, 0b01100101] = .instr (.ldVxMem 2) [] := by decide
theorem test_decode_undecoded : decode [0b10001111, 0b00001000] = .rejected (.undecoded 0x8F08) := by decide

/-! ### One step -/

/-- TD1 -/
theorem test_cls_clears_and_keeps_vf :
    after (step (word 0x00E0 ((lit 5 3 st).writeV 15 0x33))) (fun t => !t.cell 5 3 && t.readV 15 == 0x33 && t.pc == 0x202) = true := by decide

/-- TC2 -/
theorem test_ret_pops :
    after (step (word 0x00EE { st with pc := 0x400, sp := 2, stack := st.stack.set 1 0x345 })) (fun t => t.pc == 0x345 && t.sp == 1 && t.stack[1] == 0x345) = true := by decide

/-- TC3 -/
theorem test_ret_underflow :
    after (step (word 0x00EE st)) (fun t => t.fault == some (.stackUnderflow 0x200) && t.pc == 0x200 && t.sp == 0) = true := by decide

/-- TF1 -/
theorem test_jp_sets_pc :
    after (step (word 0x1234 st)) (fun t => t.pc == 0x234) = true := by decide

/-- TC1 -/
theorem test_call_pushes :
    after (step (word 0x2345 st)) (fun t => t.stack[0] == 0x202 && t.sp == 1 && t.pc == 0x345) = true := by decide

/-- TC4 -/
theorem test_call_overflow :
    after (step (word 0x2300 { st with sp := 16 })) (fun t => t.fault == some (.stackOverflow 0x200) && t.pc == 0x200 && t.sp == 16 && t.stack == st.stack) = true := by decide

/-- TC10 -/
theorem test_seImm_skips :
    after (step (word 0x3205 (st.writeV 2 0x05))) (fun t => t.pc == 0x204) = true := by decide

/-- TC19 -/
theorem test_seImm_wraps_pc :
    after (step (putAll 0xFFE [0x30, 0x00] (wrapped { st with pc := 0xFFFE }))) (fun t => t.pc == 0x0002) = true := by decide

/-- TC12 -/
theorem test_sneImm_skips :
    after (step (word 0x4205 (st.writeV 2 0x06))) (fun t => t.pc == 0x204) = true := by decide

/-- TC13 -/
theorem test_sneImm_stays :
    after (step (word 0x4205 (st.writeV 2 0x05))) (fun t => t.pc == 0x202) = true := by decide

/-- TC14 -/
theorem test_seReg_skips :
    after (step (word 0x5120 ((st.writeV 1 0x7F).writeV 2 0x7F))) (fun t => t.pc == 0x204) = true := by decide

/-- TC15 -/
theorem test_seReg_stays :
    after (step (word 0x5120 ((st.writeV 1 0x01).writeV 2 0x02))) (fun t => t.pc == 0x202) = true := by decide

/-- TI1 -/
theorem test_ldImm_loads :
    after (step (word 0x6A42 st)) (fun t => t.readV 10 == 0x42 && t.pc == 0x202) = true := by decide

/-- TF6 -/
theorem test_ldImm_odd_pc :
    after (step (word 0x6001 { st with pc := 0x201 })) (fun t => t.readV 0 == 0x01 && t.pc == 0x203) = true := by decide

/-- TI3 -/
theorem test_addImm_wraps_keeps_vf :
    after (step (word 0x7001 ((st.writeV 0 0xFF).writeV 15 0x07))) (fun t => t.readV 0 == 0x00 && t.readV 15 == 0x07) = true := by decide

/-- TI5 -/
theorem test_addImm_vf_is_data :
    after (step (word 0x7FFF (st.writeV 15 0x01))) (fun t => t.readV 15 == 0x00) = true := by decide

/-- TA1 -/
theorem test_ldReg_copies :
    after (step (word 0x8130 (st.writeV 3 0x5A))) (fun t => t.readV 1 == 0x5A && t.readV 3 == 0x5A) = true := by decide

/-- TA25 -/
theorem test_ldReg_vf_under_refuse :
    after (step (word 0x8F10 (refusing (st.writeV 1 0x5A)))) (fun t => t.readV 15 == 0x5A && t.fault == none) = true := by decide

/-- TA2 -/
theorem test_orReg :
    after (step (word 0x8121 (((st.writeV 1 0xF0).writeV 2 0x0F).writeV 15 0x55))) (fun t => t.readV 1 == 0xFF && t.readV 15 == 0x55) = true := by decide

/-- TA3 -/
theorem test_andReg :
    after (step (word 0x8122 ((st.writeV 1 0xF0).writeV 2 0x3C))) (fun t => t.readV 1 == 0x30) = true := by decide

/-- TA4 -/
theorem test_xorReg :
    after (step (word 0x8123 ((st.writeV 1 0xFF).writeV 2 0x0F))) (fun t => t.readV 1 == 0xF0) = true := by decide

/-- TA8 -/
theorem test_addReg_carry :
    after (step (word 0x8124 ((st.writeV 1 0xC8).writeV 2 0x64))) (fun t => t.readV 1 == 0x2C && t.readV 15 == 1) = true := by decide

/-- TA23 -/
theorem test_addReg_vf_source :
    after (step (word 0x81F4 ((st.writeV 1 0x10).writeV 15 0x20))) (fun t => t.readV 1 == 0x30 && t.readV 15 == 0) = true := by decide

/-- TA10 -/
theorem test_subReg_borrow :
    after (step (word 0x8125 ((st.writeV 1 0x00).writeV 2 0x01))) (fun t => t.readV 1 == 0xFF && t.readV 15 == 0) = true := by decide

/-- TA11 -/
theorem test_subReg_equal :
    after (step (word 0x8125 ((st.writeV 1 0x05).writeV 2 0x05))) (fun t => t.readV 1 == 0x00 && t.readV 15 == 1) = true := by decide

/-- TA15 -/
theorem test_shr_out_bit :
    after (step (word 0x8456 ((st.writeV 4 0x05).writeV 5 0xFF))) (fun t => t.readV 4 == 0x02 && t.readV 15 == 1) = true := by decide

/-- TA21 -/
theorem test_shr_vf_flag_last :
    after (step (word 0x8FF6 (st.writeV 15 0x02))) (fun t => t.readV 15 == 0) = true := by decide

/-- TA13 -/
theorem test_subnReg_borrow :
    after (step (word 0x8127 ((st.writeV 1 0x0A).writeV 2 0x03))) (fun t => t.readV 1 == 0xF9 && t.readV 15 == 0) = true := by decide

/-- TA14 -/
theorem test_subnReg_no_borrow :
    after (step (word 0x8127 ((st.writeV 1 0x03).writeV 2 0x0A))) (fun t => t.readV 1 == 0x07 && t.readV 15 == 1) = true := by decide

/-- TA18 -/
theorem test_shl_out_bit :
    after (step (word 0x840E ((st.writeV 4 0x7F).writeV 0 0xFF))) (fun t => t.readV 4 == 0xFE && t.readV 15 == 0) = true := by decide

/-- TA22 -/
theorem test_shl_vf_flag_last :
    after (step (word 0x8FFE (st.writeV 15 0x40))) (fun t => t.readV 15 == 0) = true := by decide

/-- TA24 -/
theorem test_addReg_refused :
    after (step (word 0x8F14 (refusing (st.writeV 1 0x5A)))) (fun t => t.fault == some (.vfDestRefused 0x200) && t.readV 15 == 0 && t.pc == 0x200) = true := by decide

/-- TC16 -/
theorem test_sneReg_skips :
    after (step (word 0x9120 ((st.writeV 1 0x01).writeV 2 0x02))) (fun t => t.pc == 0x204) = true := by decide

/-- TC17 -/
theorem test_sneReg_stays :
    after (step (word 0x9120 ((st.writeV 1 0x02).writeV 2 0x02))) (fun t => t.pc == 0x202) = true := by decide

/-- TM1 -/
theorem test_ldI :
    after (step (word 0xA2F0 st)) (fun t => t.index == 0x2F0) = true := by decide

/-- TC8 -/
theorem test_jpV0_not_reduced :
    after (step (word 0xBFFF (st.writeV 0 0xFF))) (fun t => t.pc == 0x10FE) = true := by decide

/-- TD7 -/
theorem test_drw_collision :
    after (step (word 0xD011 (put 0x300 0xC0 { lit 0 0 st with index := 0x300 }))) (fun t => !t.cell 0 0 && t.cell 1 0 && t.readV 15 == 1) = true := by decide

/-- TD6 -/
theorem test_drw_corner_wraps :
    after (step (word 0xD011 (put 0x300 0xC0 (((st.writeV 0 0xFF).writeV 1 0xFF).writeIndex 0x300)))) (fun t => t.cell 63 31 && t.cell 0 31 && t.readV 15 == 0) = true := by decide

/-- TK1 -/
theorem test_skp_skips :
    after (step (word 0xE39E ({ st.writeV 3 5 with keys := st.keys.set 5 true }))) (fun t => t.pc == 0x204) = true := by decide

/-- TK5 -/
theorem test_skp_no_such_key :
    after (step (word 0xE39E (st.writeV 3 0x10))) (fun t => t.fault == some (.keyIndexOutOfRange 0x200 0x10) && t.pc == 0x200) = true := by decide

/-- TK3 -/
theorem test_sknp_skips :
    after (step (word 0xE3A1 (st.writeV 3 5))) (fun t => t.pc == 0x204) = true := by decide

/-- TK4 -/
theorem test_sknp_stays :
    after (step (word 0xE3A1 ({ st.writeV 3 5 with keys := st.keys.set 5 true }))) (fun t => t.pc == 0x202) = true := by decide

/-- TK10 -/
theorem test_ldVxDt :
    after (step (word 0xF107 { st with dt := 0x3C })) (fun t => t.readV 1 == 0x3C) = true := by decide

/-- TK7 -/
theorem test_ldVxK_waits :
    after (step (word 0xF00A st)) (fun t => t == word 0xF00A st) = true := by decide

/-- TK8 -/
theorem test_ldVxK_lowest :
    after (step (word 0xF00A { st with keys := (st.keys.set 5 true).set 2 true })) (fun t => t.readV 0 == 0x02 && t.pc == 0x202) = true := by decide

/-- TK11 -/
theorem test_ldDtVx :
    after (step (word 0xF015 (st.writeV 0 0x02))) (fun t => t.dt == 0x02) = true := by decide

/-- TK12 -/
theorem test_ldStVx :
    after (step (word 0xF418 (st.writeV 4 0x0A))) (fun t => t.st == 0x0A && t.soundOn) = true := by decide

/-- TK13 -/
theorem test_ldStVx_off :
    after (step (word 0xF418 { st with st := 5 })) (fun t => t.st == 0 && !t.soundOn) = true := by decide

/-- TM3 -/
theorem test_addI_wraps :
    after (step (word 0xF01E ((st.writeIndex 0xFFFF).writeV 0 0x02))) (fun t => t.index == 0x0001 && t.readV 15 == 0) = true := by decide

/-- TM4 -/
theorem test_addI_no_flag :
    after (step (word 0xF01E ((st.writeIndex 0x0FFF).writeV 0 0x01))) (fun t => t.index == 0x1000 && t.readV 15 == 0) = true := by decide

/-- TM6 -/
theorem test_ldF_not_masked :
    after (step (word 0xF229 (st.writeV 2 0xFF))) (fun t => t.index == 0x4FB) = true := by decide

/-- TM7 -/
theorem test_ldB_digits :
    after (step (word 0xF033 ((st.writeIndex 0x300).writeV 0 0xFE))) (fun t => t.peek 0x300 == 2 && t.peek 0x301 == 5 && t.peek 0x302 == 4 && t.index == 0x300) = true := by decide

/-- TM10 -/
theorem test_ldB_past_memory :
    after (step (word 0xF033 ((st.writeIndex 0x0FFE).writeV 0 0xFE))) (fun t => t.fault == some (.memOutOfRange 0x1000 0x200) && t.peek 0xFFE == 0 && t.peek 0xFFF == 0) = true := by decide

/-- TM12 -/
theorem test_ldMemVx_stores :
    after (step (word 0xF255 ((((st.writeIndex 0x400).writeV 0 0x11).writeV 1 0x22).writeV 2 0x33))) (fun t => t.peek 0x400 == 0x11 && t.peek 0x401 == 0x22 && t.peek 0x402 == 0x33 && t.peek 0x403 == 0 && t.index == 0x400) = true := by decide

/-- TM20 -/
theorem test_ldMemVx_wraps :
    after (step (word 0xF255 (wrapped ((((st.writeIndex 0x0FFE).writeV 0 0x11).writeV 1 0x22).writeV 2 0x33)))) (fun t => t.peek 0xFFE == 0x11 && t.peek 0xFFF == 0x22 && t.peek 0x000 == 0x33) = true := by decide

/-- TM17 -/
theorem test_ldVxMem_loads :
    after (step (word 0xF265 (putAll 0x300 [2, 5, 4] (st.writeIndex 0x300)))) (fun t => t.readV 0 == 2 && t.readV 1 == 5 && t.readV 2 == 4 && t.readV 3 == 0 && t.index == 0x300) = true := by decide

/-- TM19 -/
theorem test_ldVxMem_past_memory :
    after (step (word 0xF065 (st.writeIndex 0xFFFF))) (fun t => t.fault == some (.memOutOfRange 0xFFFF 0x200) && t.readV 0 == 0) = true := by decide

/-- TF9 -/
theorem test_undecoded_is_no_op :
    after (step (word 0x5121 ((st.writeV 1 7).writeV 2 7))) (fun t => t.pc == 0x202) = true := by decide

/-- TF4 -/
theorem test_fetch_past_memory :
    after (step (put 0xFFF 0x12 { st with pc := 0xFFF })) (fun t => t.fault == some (.memOutOfRange 0x1000 0xFFF) && t.pc == 0xFFF) = true := by decide

/-- TF5 -/
theorem test_fetch_wraps :
    after (step (putAll 0xFFF [0x12] (put 0 0xF0 (wrapped { st with pc := 0xFFF })))) (fun t => t.pc == 0x2F0) = true := by decide

/-- TF2 -/
theorem test_fetch_at_last_word :
    after (step (word 0x00E0 { st with pc := 0xFFE })) (fun t => t.pc == 0x1000 && t.fault == none) = true := by decide
/-- TI6: the draw 0xB7 is given, for the byte of an execution is free. -/
theorem test_rnd_masks : (rndWith 0xB7 3 0x0F st).readV 3 = 0x07 := by decide

/-- TI7: with a mask of 0 the result is 0 whatever is drawn. -/
theorem test_rnd_zero_mask (b : Byte) : (rndWith b 3 0x00 st).readV 3 = 0x00 := by
  rw [rndWith, State.readV_writeV_self]; exact BitVec.and_zero

/-! ### Host operations -/

/-- TK14 -/
theorem test_tick_stops_at_zero :
    after (runEvents [.host .tickTimers, .host .tickTimers, .host .tickTimers] { st with dt := 2, st := 0 })
      (fun t => t.dt == 0 && t.st == 0) = true := by decide

/-- TH1, TH2 -/
theorem test_set_key :
    hostOp (.setKey 16 true) st = .next st ∧
      after (hostOp (.setKey 3 true) st) (fun t => t.pressed 3 && !t.pressed 4) = true := ⟨rfl, by decide⟩

/-- TH6 -/
theorem test_load_over_load :
    after (runEvents [.host (.load [0xAA, 0xBB, 0xCC]), .host (.load [0x11])] st)
      (fun t => t.peek 0x200 == 0x11 && t.peek 0x201 == 0xBB && t.peek 0x202 == 0xCC) = true := by decide

/-- TH7 -/
theorem test_reset_gives_power_on :
    after (hostOp .reset (lit 3 3 (put 0x10 0x55 { st.writeV 3 9 with pc := 0x444, dt := 7, sp := 3 })))
      (fun t => t == State.reset) = true := by decide

/-- TH8, TH9 -/
theorem test_font_bytes :
    (List.range 5).map st.peek = [0xF0, 0x90, 0x90, 0x90, 0xF0] ∧
      (List.range' 75 6).map st.peek = [0xF0, 0x80, 0xF0, 0x80, 0x80, 0x00] := by decide

/-- TX1, TX2: a state that faulted is stuck, and its fault is the answer to every operation. -/
theorem test_faulted_is_stuck :
    [Event.step, .host .tickTimers, .host (.setKey 0 true), .host (.load [0x00]), .host .reset].all
      (fun e => match e.apply (out (step (word 0x00EE st))) with
        | .fault f => f == Fault.stackUnderflow 0x200
        | _ => false) = true := by decide

/-! ### The opcode table: every row decodes, and its word runs as the first instruction after reset -/

theorem test_table_words_decode :
    opcodeTable.all (fun r => (decodeTableWord 16 r.pattern.toNat).map Instr.row == some r) = true := by decide

theorem test_table_words_run :
    opcodeTable.all (fun r => after (step (st.withFetchWord 16 r.pattern.toNat)) (fun _ => true)) = true := by decide

/-! ### For every statement with hypotheses, a state that meets them, at the boundary of each clause -/

theorem witness_StepRunsDecodedInstruction :
    (word 0x6A42 st).fault = none ∧ (word 0x6A42 st).fetchFault = none ∧
      decode (word 0x6A42 st).fetchBytes = .instr (.ldImm 10 0x42) [] := by decide

theorem witness_UndecodedWordOnlyAdvancesPc :
    (word 0x800F st).fault = none ∧ (word 0x800F st).fetchFault = none ∧
      (word 0x800F st).fetchBytes = [hiByte 0x800F, loByte 0x800F] ∧ undecodedSpace 0x800F :=
  ⟨by decide, by decide, by decide, by unfold undecodedSpace; decide⟩

theorem witness_FetchPastMemory :
    [(0xFFF : Word), 0x1000, 0xFFFF].all (fun a => decide (4095 ≤ a.toNat)) = true ∧ st.fault = none ∧
      st.config.memOob = .fault ∧ (wrapped st).config.memOob = .wrap := by decide

theorem witness_FetchIsBigEndian :
    State.pc { st with pc := 0xFFE } = (4094 : Word) ∧ decode [0x12, 0x34] = .instr (.jp 0x234) [] := by decide

theorem witness_DecodeEncodeRoundTrip : (Instr.drw 15 15 15).wellFormed = true := by decide

theorem witness_EncodeDecodeRoundTrip : decode [0xDF, 0xFF, 0x07] = .instr (.drw 15 15 15) [0x07] := by decide

theorem witness_DecoderFollowsOpcodeTable :
    ⟨0xF065, 0xF0FF⟩ ∈ opcodeTable ∧ OpcodeRow.covers ⟨0xF065, 0xF0FF⟩ 0xFF65 ∧
      decodeWord 0xFF65 = some (.ldVxMem 15) := ⟨by decide, by unfold OpcodeRow.covers; decide, by decide⟩

theorem witness_ReturnPopsTheStack :
    State.sp { st with sp := 1 } ≠ 0 ∧ State.sp { st with sp := 16 } ≠ 0 ∧ st.sp = 0 := by decide

theorem witness_CallPushesReturnAddress : st.sp.val < 16 ∧ (15 : Fin 17).val < 16 ∧ (16 : Fin 17).val = 16 := by decide

theorem witness_CallThenReturnRestores :
    State.fault { st with sp := 15 } = none ∧
      exec (.call 0x300) { st with sp := 15 } = .next (out (exec (.call 0x300) { st with sp := 15 })) ∧
      (out (exec (.call 0x300) { st with sp := 15 })).fault = none := ⟨rfl, rfl, rfl⟩

theorem witness_SelfJumpLeavesStateUnchanged : (word 0x1200 st).AtEnd :=
  ⟨0x200, by decide, by decide, by decide, by decide⟩

theorem witness_AddSetsCarry :
    ¬((14 : Reg) = 15 ∧ (refusing st).config.vfDest = .refuse) ∧ ¬((15 : Reg) = 15 ∧ st.config.vfDest = .refuse) ∧
      ((15 : Reg) = 15 ∧ (refusing st).config.vfDest = .refuse) := by decide

theorem witness_SubtractSetsNotBorrow :
    ¬((0 : Reg) = 15 ∧ (refusing st).config.vfDest = .refuse) ∧ ((15 : Reg) = 15 ∧ (refusing st).config.vfDest = .refuse) := by
  decide

theorem witness_ShiftsSetBitOut :
    ¬((14 : Reg) = 15 ∧ (refusing st).config.vfDest = .refuse) ∧ ((15 : Reg) = 15 ∧ (refusing st).config.vfDest = .refuse) := by
  decide

theorem witness_VfAsDestinationOfFlagProducers :
    st.config.vfDest = .flagLast ∧ (refusing st).config.vfDest = .refuse ∧
      Instr.shl 15 3 ∈ [Instr.addReg 15 3, .subReg 15 3, .shr 15 3, .subnReg 15 3, .shl 15 3] := by decide

theorem witness_BcdStoresThreeDigits :
    st.Inv ∧ (0xFFD : Word).toNat + 2 < 4096 ∧ (wrapped st).Inv ∧ (wrapped st).config.memOob = .wrap ∧
      st.config.memOob = .fault ∧ 4096 ≤ (0xFFE : Word).toNat + 2 := by decide

theorem witness_StoreRegistersThroughVx :
    (put 0x300 7 st).Inv ∧ (0xFF0 : Word).toNat + (15 : Reg).val < 4096 ∧ (wrapped st).config.memOob = .wrap ∧
      st.config.memOob = .fault ∧ 4096 ≤ (0xFF1 : Word).toNat + (15 : Reg).val := by decide

theorem witness_LoadRegistersThroughVx :
    (0xFFF : Word).toNat + (0 : Reg).val < 4096 ∧ (wrapped st).config.memOob = .wrap ∧
      st.config.memOob = .fault ∧ 4096 ≤ (0x1000 : Word).toNat + (0 : Reg).val := by decide

theorem witness_AccessGoesToPhysicalAddress :
    4095 < 4096 ∧ (wrapped st).config.memOob = .wrap ∧ (wrapped st).physical 4096 = 0 ∧ (wrapped st).physical 4095 = 4095 := by
  decide

theorem witness_StoreIsSeenByLaterFetch :
    st.Inv ∧ st.fault = none ∧ 1 ≤ (1 : Reg).val ∧
      exec (.ldMemVx 1) (st.writeIndex 0x300) = .next (out (exec (.ldMemVx 1) (st.writeIndex 0x300))) ∧
      (out (exec (.ldMemVx 1) (st.writeIndex 0x300))).fault = none ∧
      State.pc { out (exec (.ldMemVx 1) (st.writeIndex 0x300)) with pc := 0x300 } = (st.writeIndex 0x300).index :=
  ⟨by decide, rfl, by decide, rfl, by decide, by decide⟩

/-- Glyph 0 at the corner of the clear framebuffer sets (0, 0) (TD2). -/
theorem witness_SpriteSets : SpriteSets st 0 1 5 0 0 ∧ st.cell 0 0 = false :=
  ⟨⟨0, 0, by decide, by decide, by decide, by decide, by decide, by decide⟩, by decide⟩

theorem witness_DrawXorsTheSprite_hit :
    15 < 16 ∧ ∃ px py, SpriteSets (lit 0 0 st) 0 1 15 px py ∧ (lit 0 0 st).cell px py = true :=
  ⟨by decide, 0, 0, ⟨0, 0, by decide, by decide, by decide, by decide, by decide, by decide⟩, by decide⟩

theorem witness_DrawXorsTheSprite_miss :
    0 < 16 ∧ ¬∃ px py, SpriteSets st 0 1 0 px py ∧ st.cell px py = true :=
  ⟨by decide, fun ⟨_, _, ⟨_, _, h, _⟩, _⟩ => Nat.not_lt_zero _ h⟩

theorem witness_DrawTwiceRestores :
    5 < 16 ∧ exec (.drw 0 1 5) st = .next (out (exec (.drw 0 1 5) st)) ∧
      State.mem { st with fb := (out (exec (.drw 0 1 5) st)).fb } = st.mem ∧
      exec (.drw 0 1 5) { st with fb := (out (exec (.drw 0 1 5) st)).fb } =
        .next (out (exec (.drw 0 1 5) { st with fb := (out (exec (.drw 0 1 5) st)).fb })) ∧
      SpriteSets st 0 1 5 0 0 ∧ st.cell 0 0 = false :=
  ⟨by decide, rfl, rfl, rfl, witness_SpriteSets⟩

theorem witness_KeySkips :
    ((st.writeV 3 15).readV 3).toNat = (15 : Key).val ∧ 16 ≤ ((st.writeV 3 16).readV 3).toNat := by decide

theorem witness_KeyWaitTakesLowestKey :
    (State.pressed { st with keys := st.keys.set 15 true } 15 = true ∧
      ∀ j, j < (15 : Key) → State.pressed { st with keys := st.keys.set 15 true } j = false) ∧
    ∀ k, st.pressed k = false := by decide

theorem witness_KeyWaitSpinsUntilPressed :
    (word 0xF30A st).fault = none ∧ (word 0xF30A st).fetchFault = none ∧
      decode (word 0xF30A st).fetchBytes = .instr (.ldVxK 3) [] ∧ ∀ j, (word 0xF30A st).pressed j = false := by decide

theorem witness_TickCountsBothTimersDown : st.fault = none := rfl

theorem witness_SetKeySetsOneKey : st.fault = none ∧ 15 < 16 ∧ 16 ≤ 16 := by decide

theorem witness_LoadCopiesImageOrNothing :
    st.Inv ∧ st.fault = none ∧ 0x200 + (List.replicate 3584 (0 : Byte)).length ≤ 4096 ∧
      4096 < 0x200 + (List.replicate 3585 (0 : Byte)).length := by
  rw [List.length_replicate, List.length_replicate]; decide

theorem witness_PowerOnState : st = State.powerOn defaultConfig 0 := rfl

theorem witness_ResetGivesPowerOnState : State.fault { st with pc := 0x444, sp := 16 } = none := rfl

theorem witness_FirstStepRunsFirstLoadedWord :
    (List.replicate 3582 (0 : Byte)).length ≤ 3582 ∧ decode [0x60, 0x05] = .instr (.ldImm 0 5) [] := by
  rw [List.length_replicate]; decide

theorem witness_FaultedMachineStops : (out (step (word 0x00EE st))).fault = some (.stackUnderflow 0x200) := by decide

theorem witness_FaultsArePrecise :
    (word 0x00EE st).fault = none ∧ step (word 0x00EE st) = .next (out (step (word 0x00EE st))) ∧
      (out (step (word 0x00EE st))).fault = some (.stackUnderflow 0x200) ∧
      exec .ret st = .next (out (exec .ret st)) ∧ (out (exec .ret st)).fault = some (.stackUnderflow 0x1FE) :=
  ⟨by decide, rfl, by decide, rfl, by decide⟩

/-- Each of the five faults is raised by some instruction. -/
theorem witness_OnlyTable13Faults :
    (out (exec (.ldB 0) (st.writeIndex 0xFFE))).fault = some (.memOutOfRange 0x1000 0x1FE) ∧
      (out (exec (.call 0) { st with sp := 16 })).fault = some (.stackOverflow 0x1FE) ∧
      (out (exec .ret st)).fault = some (.stackUnderflow 0x1FE) ∧
      (out (exec (.skp 0) (st.writeV 0 16))).fault = some (.keyIndexOutOfRange 0x1FE 16) ∧
      (out (exec (.shl 15 0) (refusing st))).fault = some (.vfDestRefused 0x1FE) := by decide

theorem witness_StepAlwaysReturns : st.fault = none := rfl

theorem witness_EndsWellMeansNoFaultThroughout :
    EndsWell ([.step] ++ [.host .tickTimers]) st (out (runEvents [.step, .host .tickTimers] st)) := ⟨rfl, by decide⟩

theorem witness_OnlyTwoInstructionsStore :
    exec (.ldMemVx 0) ((st.writeIndex 0x300).writeV 0 5) = .next (out (exec (.ldMemVx 0) ((st.writeIndex 0x300).writeV 0 5))) ∧
      (out (exec (.ldMemVx 0) ((st.writeIndex 0x300).writeV 0 5))).peek 0x300 ≠ ((st.writeIndex 0x300).writeV 0 5).peek 0x300 :=
  ⟨rfl, by decide⟩

theorem witness_StackAndIndexWriters :
    (out (exec (.call 0) st)).stack ≠ st.stack ∧ (out (exec (.call 0) st)).sp ≠ st.sp ∧
      (out (exec (.ldI 5) st)).index ≠ st.index := by decide

theorem witness_DeviceWriters :
    (out (exec .cls (lit 0 0 st))).fb ≠ (lit 0 0 st).fb ∧ (out (exec (.ldDtVx 0) (st.writeV 0 1))).dt ≠ st.dt ∧
      (out (exec (.ldStVx 0) (st.writeV 0 1))).st ≠ st.st := by decide

theorem witness_VfWriters : (out (exec (.shr 0 0) (st.writeV 0 1))).readV 15 ≠ (st.writeV 0 1).readV 15 := by decide

theorem witness_PcWriters :
    st.fault = none ∧ (out (exec (.seImm 0 0) st)).fault = none ∧ (out (exec (.seImm 0 0) st)).pc ≠ st.pc ∧
      (out (exec (.ldVxK 0) st)).pc ≠ st.pc := by decide

theorem witness_TimersRiseOnlyWhenSet :
    (word 0xF015 (st.writeV 0 9)).dt.toNat < (out (Event.apply .step (word 0xF015 (st.writeV 0 9)))).dt.toNat ∧
      (word 0xF018 (st.writeV 0 9)).st.toNat < (out (Event.apply .step (word 0xF018 (st.writeV 0 9)))).st.toNat := by decide

theorem witness_OnlyRandomTakesDraws : (∀ x nn, Instr.cls ≠ .rnd x nn) ∧ exec .cls st = .next (out (exec .cls st)) :=
  ⟨fun _ _ => nofun, rfl⟩

theorem witness_KeypadAndSoundTimerReaders :
    (∀ x, Instr.cls ≠ .skp x ∧ Instr.cls ≠ .sknp x ∧ Instr.cls ≠ .ldVxK x) ∧ exec .cls st = .next (out (exec .cls st)) :=
  ⟨fun _ => ⟨nofun, nofun, nofun⟩, rfl⟩

theorem witness_StepKeepsInvariant : (put 0x300 7 st).Inv ∧ step (put 0x300 7 st) = .next (out (step (put 0x300 7 st))) :=
  ⟨by decide, rfl⟩

theorem witness_ScheduleKeepsInvariant :
    st.Inv ∧ runEvents [.host (.load [0x60, 0x05]), .step] st = .next (out (runEvents [.host (.load [0x60, 0x05]), .step] st)) :=
  ⟨by decide, rfl⟩

theorem witness_CanonicalMemoryIsUnique :
    Memory.wf standardFont [(0x10, 0x01), (0x300, 0x05)] ∧ (put 0x10 0x01 (put 0x300 0x05 st)).mem = [(0x10, 0x01), (0x300, 0x05)] := by
  decide

end Sys2Proof.Tests
end

/-! PROOFS of the family 00_scope: memory stays in its canonical form and the parameters stay as they are, under a step and
under every schedule. The one idea: an operation either keeps memory and the parameters, or writes bytes through
`State.poke`, `State.storeBytes` or `State.pokeBytes`, which keep the form by `Memory.write_wf`. -/

namespace Sys2Proof.Machine

/-- The invariant speaks of memory and the fontset alone. -/
theorem State.inv_congr {s t : State} (hm : t.mem = s.mem) (hc : t.config = s.config) (h : s.Inv) : t.Inv := by
  simpa only [State.Inv, hm, hc] using h

/-! ### A step -/

/-- An instruction keeps memory and the parameters, or is a store of bytes from `I` up (20 R61). -/
theorem exec_keeps_or_stores {i : Instr} {s t : State} (h : exec i s = .next t) :
    (t.mem = s.mem ∧ t.config = s.config) ∨ ∃ bs, t = s.storeBytes s.index.toNat bs := by
  have hshape := exec_shape i s t h
  cases i with
  | ldB | ldMemVx =>
    obtain ⟨-, -, rfl⟩ | hstore := hshape
    · exact .inl ⟨rfl, rfl⟩
    · exact .inr hstore
  | ldVxMem x =>
    obtain ⟨-, -, rfl⟩ | rfl := hshape
    · exact .inl ⟨rfl, rfl⟩
    · obtain ⟨v, hv⟩ := State.loadRegsThrough_eq s x
      exact .inl ⟨by rw [hv], by rw [hv]⟩
  | ret | call =>
    obtain ⟨-, rfl⟩ | ht := hshape
    · exact .inl ⟨rfl, rfl⟩
    · exact .inl ⟨by rw [ht], by rw [ht]⟩
  | addReg | subReg | shr | subnReg | shl =>
    obtain ⟨-, -, rfl⟩ | ⟨_, _, rfl⟩ := hshape <;> exact .inl ⟨rfl, rfl⟩
  | skp | sknp => obtain ⟨-, rfl⟩ | rfl | rfl := hshape <;> exact .inl ⟨rfl, rfl⟩
  | seImm | sneImm | seReg | sneReg => obtain rfl | rfl := hshape <;> exact .inl ⟨rfl, rfl⟩
  | ldVxK => obtain ⟨_, rfl⟩ | rfl := hshape <;> exact .inl ⟨rfl, rfl⟩
  | ldImm | addImm | ldReg | orReg | andReg | xorReg | ldVxDt | rnd =>
    obtain ⟨_, rfl⟩ := hshape
    exact .inl ⟨rfl, rfl⟩
  | drw =>
    obtain ⟨_, _, rfl⟩ := hshape
    exact .inl ⟨rfl, rfl⟩
  | cls | jp | jpV0 | ldI | addI | ldF | ldDtVx | ldStVx =>
    exact .inl ⟨by rw [hshape], by rw [hshape]⟩

/-- A step keeps memory and the parameters, or is a store of bytes from `I` up. -/
theorem step_keeps_or_stores {s t : State} (h : step s = .next t) :
    (t.mem = s.mem ∧ t.config = s.config) ∨ ∃ bs, t = s.advance.storeBytes s.index.toNat bs := by
  obtain ⟨f, -, hs⟩ | ⟨-, f, -, hs⟩ | ⟨-, -, i, rest, -, hs⟩ | ⟨-, -, w, -, hs⟩ := step_cases s <;> rw [hs] at h
  · cases h
  · cases h; exact .inl ⟨rfl, rfl⟩
  · exact exec_keeps_or_stores h
  · cases h; exact .inl ⟨rfl, rfl⟩

theorem step_inv {s t : State} (hinv : s.Inv) (h : step s = .next t) : t.Inv := by
  obtain ⟨hm, hc⟩ | ⟨bs, rfl⟩ := step_keeps_or_stores h
  · exact State.inv_congr hm hc hinv
  · exact State.storeBytes_inv s.advance _ bs hinv

theorem step_config {s t : State} (h : step s = .next t) : t.config = s.config := by
  obtain ⟨-, hc⟩ | ⟨bs, rfl⟩ := step_keeps_or_stores h
  · exact hc
  · simp

/-! ### A host operation -/

@[simp] theorem State.setKey_config (s : State) (index : Nat) (pressed : Bool) :
    (s.setKey index pressed).config = s.config := by
  unfold State.setKey; split <;> rfl

@[simp] theorem State.loadImage_config (s : State) (bs : List Byte) : (s.loadImage bs).config = s.config := by
  unfold State.loadImage; split <;> simp

/-- No host operation changes the parameters (00 R8). -/
theorem HostOp.effect_config (op : HostOp) (s : State) : (op.effect s).config = s.config := by
  cases op with
  | tickTimers => exact s.tickTimers_config
  | setKey index pressed => exact s.setKey_config index pressed
  | load bs => exact s.loadImage_config bs
  | reset => rfl

/-- A host operation that gives a state gives its effect. -/
theorem hostOp_next {op : HostOp} {s t : State} (h : hostOp op s = .next t) : t = op.effect s := by
  obtain ⟨f, -, hs⟩ | ⟨-, hs⟩ := hostOp_cases op s <;> rw [hs] at h <;> cases h
  rfl

/-! ### A schedule -/

theorem Event.apply_inv {e : Event} {s t : State} (hinv : s.Inv) (h : e.apply s = .next t) : t.Inv := by
  cases e with
  | step => exact step_inv hinv h
  | host op => rw [hostOp_next h]; exact op.effect_inv s hinv

theorem Event.apply_config {e : Event} {s t : State} (h : e.apply s = .next t) : t.config = s.config := by
  cases e with
  | step => exact step_config h
  | host op => rw [hostOp_next h]; exact op.effect_config s

/-- A run of one event and more gives a state through the state that the event gives. -/
theorem runEvents_cons_next {e : Event} {events : List Event} {s t : State} (h : runEvents (e :: events) s = .next t) :
    ∃ u, e.apply s = .next u ∧ runEvents events u = .next t := by
  rw [runEvents] at h
  split at h
  · exact ⟨_, ‹_›, h⟩
  · cases h
  · cases h

/-- The induction over schedules: what every event keeps, every run keeps (60 R318). -/
theorem runEvents_preserves {P : State → Prop} (hkeep : ∀ e s t, P s → Event.apply e s = .next t → P t)
    {events : List Event} {s t : State} (hs : P s) (h : runEvents events s = .next t) : P t := by
  induction events generalizing s with
  | nil => cases h; exact hs
  | cons e events ih =>
    obtain ⟨u, hu, hrest⟩ := runEvents_cons_next h
    exact ih (hkeep e s u hs hu) hrest

/-- Settles O58: a step keeps memory, or stores bytes through operations that keep the canonical form. -/
theorem stepKeepsInvariant : Obligations.StepKeepsInvariant :=
  fun _ _ => step_inv

/-- Settles O59, by the induction over schedules: each event keeps the canonical form and the parameters. -/
theorem scheduleKeepsInvariant : Obligations.ScheduleKeepsInvariant := by
  intro events s t hinv hrun
  have hkeep (e : Event) (u w : State) (hu : u.Inv ∧ u.config = s.config) (h : e.apply u = .next w) :
      w.Inv ∧ w.config = s.config :=
    ⟨Event.apply_inv hu.1 h, (Event.apply_config h).trans hu.2⟩
  exact runEvents_preserves (P := fun u => u.Inv ∧ u.config = s.config) hkeep ⟨hinv, rfl⟩ hrun

end Sys2Proof.Machine

/-! PROOFS of the family 10_state: which instructions write and which read each component of the state. Two ideas carry
them. `exec_frame` says once which components each instruction may write, and every statement on writers reads its
component off it. `exec_retouch` says once that a change of the keypad, ST or the counter of draws passes through every
instruction that does not look at it, and the statements on readers are its special cases. -/

namespace Sys2Proof.Machine

/-! ### Writers -/

/-- The state `s` with the components that the instruction may write taken from `t`; `pc` and FAULT stand in every frame
of an instruction that can raise. -/
def Instr.frame (i : Instr) (s t : State) : State :=
  match i with
  | .cls => { s with fb := t.fb }
  | .drw _ _ _ => { s with fb := t.fb, v := t.v }
  | .ret => { s with sp := t.sp, pc := t.pc, fault := t.fault }
  | .call _ => { s with stack := t.stack, sp := t.sp, pc := t.pc, fault := t.fault }
  | .ldI _ | .addI _ | .ldF _ => { s with index := t.index }
  | .ldDtVx _ => { s with dt := t.dt }
  | .ldStVx _ => { s with st := t.st }
  | .rnd _ _ => { s with v := t.v, draws := t.draws }
  | .ldB _ | .ldMemVx _ => { s with mem := t.mem, pc := t.pc, fault := t.fault }
  | .jp _ | .jpV0 _ | .seImm _ _ | .sneImm _ _ | .seReg _ _ | .sneReg _ _ | .skp _ | .sknp _ =>
    { s with pc := t.pc, fault := t.fault }
  | .ldImm _ _ | .addImm _ _ | .ldReg _ _ | .orReg _ _ | .andReg _ _ | .xorReg _ _ | .addReg _ _ | .subReg _ _
  | .shr _ _ | .subnReg _ _ | .shl _ _ | .ldVxDt _ | .ldVxK _ | .ldVxMem _ =>
    { s with v := t.v, pc := t.pc, fault := t.fault }

@[simp] theorem Instr.frame_keys (i : Instr) (s t : State) : (Instr.frame i s t).keys = s.keys := by cases i <;> rfl

@[simp] theorem Instr.frame_config (i : Instr) (s t : State) : (Instr.frame i s t).config = s.config := by
  cases i <;> rfl

theorem Instr.frame_draws {i : Instr} (hi : ∀ x nn, i ≠ .rnd x nn) (s t : State) :
    (Instr.frame i s t).draws = s.draws := by
  cases i with
  | rnd x nn => exact absurd rfl (hi x nn)
  | _ => rfl

/-- An instruction leaves every component outside its frame as it was. -/
theorem exec_frame {i : Instr} {s t : State} (h : exec i s = .next t) : t = Instr.frame i s t := by
  have hshape := exec_shape i s t h
  cases i with
  | ret | call =>
    obtain ⟨-, rfl⟩ | ht := hshape
    · rfl
    · rw [ht]; rfl
  | ldB | ldMemVx =>
    obtain ⟨-, -, rfl⟩ | ⟨bs, rfl⟩ := hshape
    · rfl
    · obtain ⟨m, hm⟩ := State.storeBytes_eq s s.index.toNat bs
      rw [hm]; rfl
  | ldVxMem x =>
    obtain ⟨-, -, rfl⟩ | rfl := hshape
    · rfl
    · obtain ⟨v, hv⟩ := State.loadRegsThrough_eq s x
      rw [hv]; rfl
  | addReg | subReg | shr | subnReg | shl => obtain ⟨-, -, rfl⟩ | ⟨_, _, rfl⟩ := hshape <;> rfl
  | skp | sknp => obtain ⟨-, rfl⟩ | rfl | rfl := hshape <;> rfl
  | seImm | sneImm | seReg | sneReg => obtain rfl | rfl := hshape <;> rfl
  | ldVxK => obtain ⟨_, rfl⟩ | rfl := hshape <;> rfl
  | ldImm | addImm | ldReg | orReg | andReg | xorReg | ldVxDt | rnd => obtain ⟨_, rfl⟩ := hshape; rfl
  | drw => obtain ⟨_, _, rfl⟩ := hshape; rfl
  | cls | jp | jpV0 | ldI | addI | ldF | ldDtVx | ldStVx => rw [hshape]; rfl

/-- Settles O50: the stack, SP and `I` stand in the frames of the named instructions alone. -/
theorem stackAndIndexWriters : Obligations.StackAndIndexWriters := by
  intro i s t h
  have ht := exec_frame h
  refine ⟨fun hne => ?stack, fun hne => ?sp, fun hne => ?index⟩
  case stack =>
    cases i with
    | call nnn => exact ⟨nnn, rfl⟩
    | _ => exact absurd (congrArg State.stack ht) hne
  case sp =>
    cases i with
    | ret => exact .inl rfl
    | call nnn => exact .inr ⟨nnn, rfl⟩
    | _ => exact absurd (congrArg State.sp ht) hne
  case index =>
    cases i with
    | ldI nnn => exact .inl ⟨nnn, rfl⟩
    | addI x => exact .inr ⟨x, .inl rfl⟩
    | ldF x => exact .inr ⟨x, .inr rfl⟩
    | _ => exact absurd (congrArg State.index ht) hne

/-- Settles O51: the framebuffer and the timers stand in the frames of the named instructions alone, the keypad and the
parameters in none. -/
theorem deviceWriters : Obligations.DeviceWriters := by
  intro i s t h
  have ht := exec_frame h
  refine ⟨fun hne => ?fb, fun hne => ?dt, fun hne => ?st, ?keys, ?config⟩
  case fb =>
    cases i with
    | cls => exact .inl rfl
    | drw x y n => exact .inr ⟨x, y, n, rfl⟩
    | _ => exact absurd (congrArg State.fb ht) hne
  case dt =>
    cases i with
    | ldDtVx x => exact ⟨x, rfl⟩
    | _ => exact absurd (congrArg State.dt ht) hne
  case st =>
    cases i with
    | ldStVx x => exact ⟨x, rfl⟩
    | _ => exact absurd (congrArg State.st ht) hne
  case keys => rw [ht, Instr.frame_keys]
  case config => rw [ht, Instr.frame_config]

/-! ### Writers of one register -/

/-- A write that changes a register is a write to it. -/
theorem State.eq_of_readV_writeV_ne {s : State} {x q : Reg} {b : Byte} (h : (s.writeV x b).readV q ≠ s.readV q) :
    x = q := by
  by_contra hx
  exact h (State.readV_writeV_ne s x q b (Ne.symm hx))

/-- Fx65 changes VF only with x = 15: it loads no register above Vx (43 R178). -/
theorem State.eq_vf_of_loadRegsThrough_ne {s : State} {x : Reg}
    (h : (s.loadRegsThrough x).readV Reg.vf ≠ s.readV Reg.vf) : x = Reg.vf := by
  by_contra hx
  refine h ?_
  rw [State.readV_loadRegsThrough, if_neg]
  exact fun hle => hx (le_antisymm (Fin.le_last x) hle)

/-- Settles O52: a flag write is named by the first clause, a write to Vx changes VF only with x = 15, and no other
instruction has a register in its frame. -/
theorem vfWriters : Obligations.VfWriters := by
  intro i s t h hne
  have hshape := exec_shape i s t h
  cases i with
  | addReg x y | subReg x y | shr x y | subnReg x y | shl x y | drw x y n => exact .inl ⟨x, y, by simp⟩
  | ldImm | addImm | ldReg | orReg | andReg | xorReg | ldVxDt =>
    obtain ⟨b, rfl⟩ := hshape
    obtain rfl := State.eq_of_readV_writeV_ne hne
    simp
  | rnd x nn =>
    obtain ⟨b, rfl⟩ := hshape
    obtain rfl := State.eq_of_readV_writeV_ne (s := s) (b := b) hne
    simp
  | ldVxK x =>
    obtain ⟨b, rfl⟩ | rfl := hshape
    · obtain rfl := State.eq_of_readV_writeV_ne hne
      simp
    · exact absurd rfl hne
  | ldVxMem x =>
    obtain ⟨-, -, rfl⟩ | rfl := hshape
    · exact absurd rfl hne
    · obtain rfl := State.eq_vf_of_loadRegsThrough_ne hne
      simp
  | _ => exact absurd (State.readV_congr (congrArg State.v (exec_frame h)) 15) hne

/-! ### Readers: a change of what an instruction does not look at -/

/-- A change of the keypad, of ST and of the counter of draws. -/
structure Retouch where
  /-- what becomes of the keypad -/
  keys : Vector Bool 16 → Vector Bool 16 := id
  /-- what becomes of ST -/
  st : Byte → Byte := id
  /-- what becomes of the counter of draws -/
  draws : Nat → Nat := id

/-- The state after a change of the keypad, of ST and of the counter of draws. -/
def State.retouch (g : Retouch) (s : State) : State :=
  { s with keys := g.keys s.keys, st := g.st s.st, draws := g.draws s.draws }

/-- An answer with the same change in its next state. -/
def Result.retouch (g : Retouch) : Result → Result
  | .next t => .next (t.retouch g)
  | .fault f => .fault f
  | .refused r => .refused r

theorem State.skipIf_retouch (g : Retouch) (s : State) (c : Bool) :
    (s.retouch g).skipIf c = (s.skipIf c).retouch g := by
  cases c <;> rfl

theorem State.poke_retouch (g : Retouch) (s : State) (a : Nat) (b : Byte) :
    (s.retouch g).poke a b = (s.poke a b).retouch g := by
  unfold State.poke
  split <;> rfl

theorem State.storeBytes_retouch (g : Retouch) (s : State) (base : Nat) (bs : List Byte) :
    (s.retouch g).storeBytes base bs = (s.storeBytes base bs).retouch g := by
  induction bs generalizing s base with
  | nil => rfl
  | cons b bs ih =>
    calc ((s.retouch g).poke (s.physical base) b).storeBytes (base + 1) bs
      _ = ((s.writeByte base b).retouch g).storeBytes (base + 1) bs := by rw [State.poke_retouch]; rfl
      _ = (s.storeBytes base (b :: bs)).retouch g := ih _ _

theorem State.foldl_writeV_retouch (g : Retouch) (s : State) (l : List Nat) (f : Nat → Byte) :
    l.foldl (fun t k => t.writeV (Fin.ofNat 16 k) (f k)) (s.retouch g) =
      (l.foldl (fun t k => t.writeV (Fin.ofNat 16 k) (f k)) s).retouch g := by
  induction l generalizing s with
  | nil => rfl
  | cons k l ih => exact ih (s.writeV (Fin.ofNat 16 k) (f k))

theorem State.loadRegsThrough_retouch (g : Retouch) (s : State) (x : Reg) :
    (s.retouch g).loadRegsThrough x = (s.loadRegsThrough x).retouch g :=
  State.foldl_writeV_retouch g s _ _

theorem State.checkedAtIndex_retouch (g : Retouch) (s : State) (count : Nat) (go : State) :
    (s.retouch g).checkedAtIndex count (go.retouch g) = Result.retouch g (s.checkedAtIndex count go) := by
  have hcheck : (s.retouch g).firstOutOfRange (s.retouch g).index.toNat count =
    s.firstOutOfRange s.index.toNat count := rfl
  rw [State.checkedAtIndex, State.checkedAtIndex, hcheck]
  cases s.firstOutOfRange s.index.toNat count <;> rfl

theorem State.writeWithFlag_retouch (g : Retouch) (s : State) (x : Reg) (result : Byte) (flag : Bool) :
    (s.retouch g).writeWithFlag x result flag = Result.retouch g (s.writeWithFlag x result flag) := by
  have hcfg : (s.retouch g).config = s.config := rfl
  rw [State.writeWithFlag, State.writeWithFlag, hcfg]
  split <;> rfl

theorem execRet_retouch (g : Retouch) (s : State) : execRet (s.retouch g) = Result.retouch g (execRet s) := by
  by_cases h : s.sp.val = 0
  · rw [execRet, execRet, (State.pop_eq_none s).mpr h, (State.pop_eq_none (s.retouch g)).mpr h]; rfl
  · rw [execRet_of_pos s h, execRet_of_pos (s.retouch g) h]; rfl

theorem execCall_retouch (g : Retouch) (nnn : Addr12) (s : State) :
    execCall nnn (s.retouch g) = Result.retouch g (execCall nnn s) := by
  by_cases h : s.sp.val < 16
  · rw [execCall_of_lt nnn s h, execCall_of_lt nnn (s.retouch g) h]; rfl
  · have hfull : s.sp.val = 16 := by omega
    rw [execCall, execCall, (State.push_eq_none s _).mpr hfull, (State.push_eq_none (s.retouch g) _).mpr hfull]; rfl

theorem State.pressed_retouch {g : Retouch} (hkeys : g.keys = id) (s : State) :
    (s.retouch g).pressed = s.pressed := by
  funext k
  simp [State.pressed, State.retouch, hkeys]

theorem State.skipOnKey_retouch {g : Retouch} (hkeys : g.keys = id) (s : State) (x : Reg) (want : Bool) :
    (s.retouch g).skipOnKey x want = Result.retouch g (s.skipOnKey x want) := by
  have hreg : (s.retouch g).readV x = s.readV x := rfl
  rw [State.skipOnKey, State.skipOnKey, hreg, State.pressed_retouch hkeys]
  cases keyOperand (s.readV x) with
  | none => rfl
  | some k => exact congrArg Host.Outcome.next (State.skipIf_retouch g s _)

theorem execLdVxK_retouch {g : Retouch} (hkeys : g.keys = id) (x : Reg) (s : State) :
    execLdVxK x (s.retouch g) = Result.retouch g (execLdVxK x s) := by
  rw [execLdVxK, execLdVxK, State.lowestPressed, State.pressed_retouch hkeys, ← State.lowestPressed]
  cases s.lowestPressed <;> rfl

/-- A change of the keypad, ST and the counter of draws passes through an instruction unseen, where Ex9E, ExA1 and Fx0A
find the keypad as it was, Fx18 does not set ST, and Cxnn does not take its draw from a changed counter. -/
theorem exec_retouch (g : Retouch) (i : Instr) (s : State)
    (hkeys : (∀ x, i ≠ .skp x ∧ i ≠ .sknp x ∧ i ≠ .ldVxK x) ∨ g.keys = id)
    (hst : (∀ x, i ≠ .ldStVx x) ∨ g.st = id) (hdraws : (∀ x nn, i ≠ .rnd x nn) ∨ g.draws = id) :
    exec i (s.retouch g) = Result.retouch g (exec i s) := by
  cases i with
  | ret => exact execRet_retouch g s
  | call nnn => exact execCall_retouch g nnn s
  | seImm | sneImm | seReg | sneReg => exact congrArg Host.Outcome.next (State.skipIf_retouch g s _)
  | addReg | subReg | shr | subnReg | shl => exact State.writeWithFlag_retouch g s _ _ _
  | ldB | ldMemVx =>
    refine Eq.trans ?_ (State.checkedAtIndex_retouch g s _ _)
    rw [← State.storeBytes_retouch]; rfl
  | ldVxMem x =>
    refine Eq.trans ?_ (State.checkedAtIndex_retouch g s _ _)
    rw [← State.loadRegsThrough_retouch]; rfl
  | skp x => exact State.skipOnKey_retouch (hkeys.resolve_left fun hne => (hne x).1 rfl) s x true
  | sknp x => exact State.skipOnKey_retouch (hkeys.resolve_left fun hne => (hne x).2.1 rfl) s x false
  | ldVxK x => exact execLdVxK_retouch (hkeys.resolve_left fun hne => (hne x).2.2 rfl) x s
  | ldStVx x =>
    obtain ⟨keys, st, draws⟩ := g
    obtain rfl : st = id := hst.resolve_left fun hne => hne x rfl
    rfl
  | rnd x nn =>
    obtain ⟨keys, st, draws⟩ := g
    obtain rfl : draws = id := hdraws.resolve_left fun hne => hne x nn rfl
    rfl
  | cls | jp | jpV0 | ldImm | addImm | ldReg | orReg | andReg | xorReg | ldI | addI | ldF | drw | ldVxDt | ldDtVx => rfl

/-- Settles O55: the counter stands in the frame of Cxnn alone, and another counter passes through the others unseen. -/
theorem onlyRandomTakesDraws : Obligations.OnlyRandomTakesDraws := by
  intro i s t d hi h
  constructor
  · rw [exec_frame h, Instr.frame_draws hi]
  · have hexec := exec_retouch { draws := fun _ => d } i s (.inr rfl) (.inr rfl) (.inl hi)
    rwa [h] at hexec

/-- Settles O56: another keypad passes through all but its three readers unseen, and another ST through all but Fx18,
which writes ST from a register. -/
theorem keypadAndSoundTimerReaders : Obligations.KeypadAndSoundTimerReaders := by
  refine ⟨fun i s t keys hi h => ?_, fun i s t b h => ?_⟩
  · have hexec := exec_retouch { keys := fun _ => keys } i s (.inl hi) (.inr rfl) (.inr rfl)
    rwa [h] at hexec
  · by_cases hst : ∃ x, i = .ldStVx x
    · obtain ⟨x, rfl⟩ := hst
      cases h
      exact ⟨_, rfl, rfl⟩
    · have hexec := exec_retouch { st := fun _ => b } i s (.inr rfl) (.inl (not_exists.mp hst)) (.inr rfl)
      rw [h] at hexec
      exact ⟨_, hexec, rfl⟩

end Sys2Proof.Machine

/-! PROOFS of the family 20_memory: where an access goes, what a fetch reads, which instructions store, and that the
canonical form of a memory is unique. A canonical memory lists an address exactly when it reads there as another byte than
at power-on (`Memory.mem_iff_read`), so the bytes it reads determine it. A store is seen by a later fetch because both go
through `State.physical`. -/

namespace Sys2Proof.Machine

/-! ### Where an access goes (20 R66) -/

/-- Below 4096 an access goes to its own address under either policy. -/
theorem State.physical_of_lt (s : State) {addr : Nat} (h : addr < memSize) : s.physical addr = addr := by
  unfold State.physical
  split
  · rfl
  · exact Nat.mod_eq_of_lt h

theorem State.physical_of_wrap {s : State} (h : s.config.memOob = .wrap) (addr : Nat) :
    s.physical addr = addr % memSize := by
  simp only [State.physical, h]

theorem State.readByte_of_lt (s : State) {addr : Nat} (h : addr < memSize) : s.readByte addr = s.peek addr := by
  rw [State.readByte, State.physical_of_lt s h]

/-- Settles O26: under `Fault` an access goes to its address unreduced, and below 4096 the reduction changes nothing. -/
theorem accessGoesToPhysicalAddress : Obligations.AccessGoesToPhysicalAddress :=
  fun s addr => ⟨fun h => s.physical_of_lt h, fun h => State.physical_of_wrap h addr⟩

/-! ### The fetch (20 R63) -/

/-- The first of two bytes is the high byte of their word. -/
theorem wordOfBytes_toNat (hi lo : Byte) : (wordOfBytes hi lo).toNat = hi.toNat * 256 + lo.toNat := by
  rw [wordOfBytes, BitVec.toNat_append, ← Nat.shiftLeft_add_eq_or_of_lt lo.isLt, Nat.shiftLeft_eq]

/-- What two bytes decode to is the instruction of their word. -/
theorem decodeWord_of_decode {hi lo : Byte} {more rest : List Byte} {i : Instr}
    (h : decode (hi :: lo :: more) = .instr i rest) : decodeWord (wordOfBytes hi lo) = some i := by
  rw [decode_two] at h
  cases hw : decodeWord (wordOfBytes hi lo) with
  | none => rw [hw] at h; cases h
  | some j => rw [hw] at h; cases h; rfl

/-- Settles O4: both addresses are in memory, so the check passes and the accesses go to them. -/
theorem fetchIsBigEndian : Obligations.FetchIsBigEndian := by
  refine ⟨fun s hpc => ?fetch, fun hi lo i rest h => ?word⟩
  case fetch =>
    have hlo : s.pc.toNat + 1 < memSize := Nat.add_lt_add_right hpc 1
    refine ⟨s.fetchFault_eq_none.mpr (.inr hlo), ?_⟩
    rw [State.fetchBytes, s.readByte_of_lt (Nat.lt_of_succ_lt hlo), s.readByte_of_lt hlo]
  case word => exact ⟨wordOfBytes hi lo, wordOfBytes_toNat hi lo, decodeWord_of_decode h⟩

/-! ### Stores (20 R61, R74) -/

/-- Settles O49: memory stands in the frames of Fx33 and Fx55 alone, and a read looks at memory and the parameters. -/
theorem onlyTwoInstructionsStore : Obligations.OnlyTwoInstructionsStore := by
  intro i s t a h hne
  have ht := exec_frame h
  cases i with
  | ldB x => exact ⟨x, .inl rfl⟩
  | ldMemVx x => exact ⟨x, .inr rfl⟩
  | _ => exact absurd (State.peek_congr (congrArg State.mem ht) (congrArg State.config ht) a) hne

theorem State.readByte_congr {s t : State} (hm : t.mem = s.mem) (hc : t.config = s.config) (addr : Nat) :
    t.readByte addr = s.readByte addr := by
  rw [State.readByte, State.readByte, State.physical_congr hc, State.peek_congr hm hc]

/-- A checked operation that ends without a fault passed the check and took its effect. -/
theorem State.checkedAtIndex_completes {s t : State} {count : Nat} {go : State}
    (h : s.checkedAtIndex count go = .next t) (ht : t.fault = none) :
    s.firstOutOfRange s.index.toNat count = none ∧ t = go := by
  obtain ⟨hpass, hgo⟩ | ⟨addr, -, hraise⟩ := State.checkedAtIndex_cases s count go
  · rw [hgo] at h; cases h
    exact ⟨hpass, rfl⟩
  · rw [hraise] at h; cases h
    cases ht

/-- An Fx55 that ends without a fault wrapped or stayed inside memory, and stored V0 to Vx from `I` up (43 R176). -/
theorem exec_ldMemVx_completes {s t : State} {x : Reg} (h : exec (.ldMemVx x) s = .next t) (ht : t.fault = none) :
    (s.config.memOob = .wrap ∨ s.index.toNat + (x.val + 1) ≤ memSize) ∧
      t = s.storeBytes s.index.toNat (s.regsThrough x) := by
  obtain ⟨hpass, hgo⟩ := State.checkedAtIndex_completes h ht
  exact ⟨((State.firstOutOfRange_eq_none ..).mp hpass).imp_right fun hr => hr.resolve_left (by omega), hgo⟩

/-- An access at `I + k` reads the register Vk that Fx55 stored there, for every k up to x. -/
theorem State.readByte_storeBytes_regsThrough {s : State} (hinv : s.Inv) {x k : Reg} (hk : k ≤ x)
    (hrange : s.config.memOob = .wrap ∨ s.index.toNat + (x.val + 1) ≤ memSize) :
    (s.storeBytes s.index.toNat (s.regsThrough x)).readByte (s.index.toNat + k.val) = s.readV k := by
  have hlen := s.length_regsThrough x
  have hlt : k.val < (s.regsThrough x).length := hlen ▸ Nat.lt_succ_of_le hk
  have hfit : (s.regsThrough x).length ≤ memSize := hlen ▸ Nat.le_trans x.isLt (by decide)
  rw [State.readByte, State.physical_congr (s.storeBytes_config _ _),
    State.peek_storeBytes s _ _ _ hinv hlt hfit (hlen ▸ hrange), State.getElem_regsThrough]

/-- Settles O27: the fetch at the old `I` goes through the check that the store passed, to the bytes of V0 and V1. -/
theorem storeIsSeenByLaterFetch : Obligations.StoreIsSeenByLaterFetch := by
  intro x s t u hinv _ hx hexec ht hmem hcfg hpc
  obtain ⟨hrange, rfl⟩ := exec_ldMemVx_completes hexec ht
  have hread (k : Reg) (hk : k ≤ x) : u.readByte (s.index.toNat + k.val) = s.readV k := by
    rw [State.readByte_congr hmem hcfg, State.readByte_storeBytes_regsThrough hinv hk hrange]
  constructor
  · rw [State.fetchFault_eq_none, hcfg, State.storeBytes_config, hpc]
    exact hrange.imp_right (by omega)
  · rw [State.fetchBytes, hpc]
    exact congrArg₂ (fun a b => [a, b]) (hread 0 (Fin.zero_le x)) (hread 1 hx)

/-! ### The canonical form (log entry 5) -/

/-- A canonical memory lists a byte exactly when its address reads as that byte and did not at power-on. -/
theorem Memory.mem_iff_read {font : Fontset} {m : Memory} (h : Memory.wf font m) (a : Nat) (b : Byte) :
    (a, b) ∈ m ↔ Memory.read font m a = b ∧ b ≠ powerOnByte font a := by
  induction m with
  | nil => simp [Memory.read, eq_comm]
  | cons p m ih =>
    obtain ⟨k, c⟩ := p
    obtain ⟨hrise, hcells⟩ := h
    obtain ⟨hk, hm⟩ := List.pairwise_cons.mp hrise
    obtain ⟨hc, hrest⟩ := List.forall_mem_cons.mp hcells
    rw [Memory.read, List.mem_cons, Prod.mk.injEq]
    by_cases hka : k = a
    · subst hka
      rw [if_pos rfl]
      refine ⟨?_, fun ⟨hcb, _⟩ => .inl ⟨rfl, hcb.symm⟩⟩
      rintro (⟨-, rfl⟩ | hmem)
      · exact ⟨rfl, hc.2⟩
      · exact absurd (hk _ hmem) (Nat.lt_irrefl k)
    · rw [if_neg hka, ← ih ⟨hm, hrest⟩]
      simp [Ne.symm hka]

/-- A canonical memory lists no cell that another with the same reads does not. -/
theorem Memory.subset_of_read_eq {font : Fontset} {m m' : Memory} (h : Memory.wf font m) (h' : Memory.wf font m')
    (hread : ∀ a, a < memSize → Memory.read font m a = Memory.read font m' a) : m ⊆ m' := by
  rintro ⟨a, b⟩ hmem
  have ha : a < memSize := (h.2 _ hmem).1
  rw [Memory.mem_iff_read h', ← hread a ha]
  exact (Memory.mem_iff_read h a b).mp hmem

/-- Settles O60: the two list the same cells, in the one order in which their addresses rise. -/
theorem canonicalMemoryIsUnique : Obligations.CanonicalMemoryIsUnique := by
  intro font m m' h h' hread
  have : Std.Asymm fun p q : Host.Cell => p.1 < q.1 := ⟨fun _ _ => Nat.lt_asymm⟩
  have hsub : m ⊆ m' := Memory.subset_of_read_eq h h' hread
  have hsup : m' ⊆ m := Memory.subset_of_read_eq h' h fun a ha => (hread a ha).symm
  exact List.Subset.antisymm_of_pairwise h.1 h'.1 hsub hsup

end Sys2Proof.Machine

/-! PROOFS of the family 30_encoding: the encoder and the decoder are inverse to each other, Table 11 is what the
decoder accepts and Table 12 what it leaves, and what a step does with the fetched word. The one idea: a word is laid out
again from the fields that its format names (`encodeAddr_fields`, `encodeXNN_fields`, `encodeXYN_fields`), so what the
decoder reads from the fields the encoder gives back. That an instruction stands in the row of its word then follows from
its own encoding (`row_covers_of_decodeWord`), and with it both directions of each row of Table 11 (`DecodesAs`). -/

namespace Sys2Proof

/-! ### A word from its fields (30 R92) -/

theorem encodeAddr_fields {w : Word} {o : Nibble} (ho : fieldO w = o) : encodeAddr o (fieldNNN w) = w := by
  ext i hi
  simp only [encodeAddr, ← ho, fieldO, fieldNNN]
  grind

theorem encodeXYN_fields {w : Word} {o : Nibble} (ho : fieldO w = o) :
    encodeXYN o (fieldX w) (fieldY w) (fieldN w) = w := by
  subst ho
  exact (word_eq_nibbles w).symm

theorem encodeXNN_fields {w : Word} {o : Nibble} (ho : fieldO w = o) : encodeXNN o (fieldX w) (fieldNN w) = w := by
  rw [fieldNN_eq]
  exact encodeXYN_fields ho

/-! ### The decoder reads an encoded word back (30 R96) -/

/-- A well-formed instruction is what its word decodes to, by the format of its row of Table 11. -/
theorem decodeWord_encode {i : Instr} (hwf : i.wellFormed = true) : decodeWord (encode i) = some i := by
  cases i with
  | cls | ret => rfl
  | jp | call | ldI | jpV0 =>
    simp [encode, decodeWord_major1, decodeWord_major2, decodeWord_majorA, decodeWord_majorB]
  | seImm | sneImm | ldImm | addImm | rnd =>
    simp [encode, decodeWord_major3, decodeWord_major4, decodeWord_major6, decodeWord_major7, decodeWord_majorC]
  | seReg | sneReg => simp [encode, decodeWord_major5, decodeWord_major9]
  | drw x y n =>
    have hn : n < 16 := of_decide_eq_true hwf
    simp [encode, decodeWord_majorD, Nat.mod_eq_of_lt hn]
  | ldReg | orReg | andReg | xorReg | addReg | subReg | shr | subnReg | shl =>
    simp [encode, decodeWord_major8, decodeAlu]
  | skp | sknp => simp [encode, decodeWord_majorE, decodeKeySkip]
  | ldVxDt | ldVxK | ldDtVx | ldStVx | addI | ldF | ldB | ldMemVx | ldVxMem =>
    simp [encode, decodeWord_majorF, decodeMisc]

/-! ### What decodes is the encoding of what it decodes to (30 R92, R96) -/

theorem decodeAlu_eq_some {x y : Reg} {n : Nibble} {i : Instr} (h : decodeAlu x y n = some i) :
    i.wellFormed = true ∧ encode i = encodeXYN 0x8 x y n := by
  unfold decodeAlu at h
  split_ifs at h <;> cases h <;> subst n <;> exact ⟨rfl, rfl⟩

theorem decodeKeySkip_eq_some {x : Reg} {nn : Byte} {i : Instr} (h : decodeKeySkip x nn = some i) :
    i.wellFormed = true ∧ encode i = encodeXNN 0xE x nn := by
  unfold decodeKeySkip at h
  split_ifs at h <;> cases h <;> subst nn <;> exact ⟨rfl, rfl⟩

theorem decodeMisc_eq_some {x : Reg} {nn : Byte} {i : Instr} (h : decodeMisc x nn = some i) :
    i.wellFormed = true ∧ encode i = encodeXNN 0xF x nn := by
  unfold decodeMisc at h
  split_ifs at h <;> cases h <;> subst nn <;> exact ⟨rfl, rfl⟩

/-- What a word decodes to is well formed and has that word, by the major opcode (30 R98). -/
theorem decodeWord_eq_some {w : Word} {i : Instr} (h : decodeWord w = some i) :
    i.wellFormed = true ∧ encode i = w := by
  obtain ho | ho | ho | ho | ho | ho | ho | ho | ho | ho | ho | ho | ho | ho | ho | ho := nibble_cases (fieldO w)
  · rw [decodeWord_major0 w ho] at h
    split_ifs at h with h0 h0 <;> cases h <;> exact ⟨rfl, h0.symm⟩
  · rw [decodeWord_major1 w ho] at h; cases h; exact ⟨rfl, encodeAddr_fields ho⟩
  · rw [decodeWord_major2 w ho] at h; cases h; exact ⟨rfl, encodeAddr_fields ho⟩
  · rw [decodeWord_major3 w ho] at h; cases h; exact ⟨rfl, encodeXNN_fields ho⟩
  · rw [decodeWord_major4 w ho] at h; cases h; exact ⟨rfl, encodeXNN_fields ho⟩
  · rw [decodeWord_major5 w ho] at h
    split_ifs at h with hn; cases h
    exact ⟨rfl, (congrArg (encodeXYN _ _ _) hn.symm).trans (encodeXYN_fields ho)⟩
  · rw [decodeWord_major6 w ho] at h; cases h; exact ⟨rfl, encodeXNN_fields ho⟩
  · rw [decodeWord_major7 w ho] at h; cases h; exact ⟨rfl, encodeXNN_fields ho⟩
  · rw [decodeWord_major8 w ho] at h
    exact (decodeAlu_eq_some h).imp_right (·.trans (encodeXYN_fields ho))
  · rw [decodeWord_major9 w ho] at h
    split_ifs at h with hn; cases h
    exact ⟨rfl, (congrArg (encodeXYN _ _ _) hn.symm).trans (encodeXYN_fields ho)⟩
  · rw [decodeWord_majorA w ho] at h; cases h; exact ⟨rfl, encodeAddr_fields ho⟩
  · rw [decodeWord_majorB w ho] at h; cases h; exact ⟨rfl, encodeAddr_fields ho⟩
  · rw [decodeWord_majorC w ho] at h; cases h; exact ⟨rfl, encodeXNN_fields ho⟩
  · rw [decodeWord_majorD w ho] at h; cases h
    refine ⟨decide_eq_true (fieldN w).isLt, ?_⟩
    rw [encode, BitVec.ofNat_toNat, BitVec.setWidth_eq, encodeXYN_fields ho]
  · rw [decodeWord_majorE w ho] at h
    exact (decodeKeySkip_eq_some h).imp_right (·.trans (encodeXNN_fields ho))
  · rw [decodeWord_majorF w ho] at h
    exact (decodeMisc_eq_some h).imp_right (·.trans (encodeXNN_fields ho))

/-! ### Bytes (30 R93, 20 R63) -/

/-- Bytes decode exactly when they begin with the encoding of a well-formed instruction. -/
theorem decode_eq_instr_iff {bytes rest : List Byte} {i : Instr} :
    decode bytes = .instr i rest ↔ i.wellFormed = true ∧ bytes = encodeBytes i ++ rest := by
  constructor
  · intro h
    match bytes with
    | [] => cases h
    | [_] => cases h
    | hi :: lo :: more =>
      rw [decode_two] at h
      split at h <;> cases h
      obtain ⟨hwf, henc⟩ := decodeWord_eq_some ‹_›
      refine ⟨hwf, ?_⟩
      rw [encodeBytes, henc, hiByte_wordOfBytes, loByte_wordOfBytes]
      rfl
  · rintro ⟨hwf, rfl⟩
    simp only [encodeBytes, List.cons_append, List.nil_append, decode_two, wordOfBytes_bytes, decodeWord_encode hwf]

/-- Settles O6: the two bytes of an instruction make its word again, and the word decodes to it. -/
theorem decodeEncodeRoundTrip : Obligations.DecodeEncodeRoundTrip :=
  fun _ _ hwf => decode_eq_instr_iff.mpr ⟨hwf, rfl⟩

/-- Settles O7: the word of the first two bytes is the encoding of what it decodes to. -/
theorem encodeDecodeRoundTrip : Obligations.EncodeDecodeRoundTrip :=
  fun _ _ _ => decode_eq_instr_iff.mp

/-- Settles O5, by evaluating the decoder. -/
theorem specWordsDecode : Obligations.SpecWordsDecode := by
  unfold Obligations.SpecWordsDecode
  decide

/-! ### The undecoded words (30 R103) -/

theorem decodeAlu_eq_none_iff (x y : Reg) (n : Nibble) :
    decodeAlu x y n = none ↔ n ∈ [0x8, 0x9, 0xA, 0xB, 0xC, 0xD, 0xF] := by
  obtain rfl | rfl | rfl | rfl | rfl | rfl | rfl | rfl | rfl | rfl | rfl | rfl | rfl | rfl | rfl | rfl :=
      nibble_cases n <;>
    simp [decodeAlu]

/-- One line of the decoder answers nothing when its test fails and the lines below it answer nothing. -/
theorem ite_some_eq_none_iff {α : Type} (p : Prop) [Decidable p] (a : α) (o : Option α) :
    (if p then some a else o) = none ↔ ¬p ∧ o = none := by
  split <;> simp [*]

theorem decodeKeySkip_eq_none_iff (x : Reg) (nn : Byte) : decodeKeySkip x nn = none ↔ nn ∉ [0x9E, 0xA1] := by
  simp [decodeKeySkip, ite_some_eq_none_iff]

theorem decodeMisc_eq_none_iff (x : Reg) (nn : Byte) :
    decodeMisc x nn = none ↔ nn ∉ [0x07, 0x0A, 0x15, 0x18, 0x1E, 0x29, 0x33, 0x55, 0x65] := by
  simp [decodeMisc, ite_some_eq_none_iff]

/-- The words without an instruction are those of Table 12, by the major opcode. -/
theorem decodeWord_eq_none_iff (w : Word) : decodeWord w = none ↔ undecodedSpace w := by
  unfold undecodedSpace
  obtain ho | ho | ho | ho | ho | ho | ho | ho | ho | ho | ho | ho | ho | ho | ho | ho :=
      nibble_cases (fieldO w) <;>
    simp [ho, decodeWord_major0, decodeWord_major1, decodeWord_major2, decodeWord_major3, decodeWord_major4,
      decodeWord_major5, decodeWord_major6, decodeWord_major7, decodeWord_major8, decodeWord_major9, decodeWord_majorA,
      decodeWord_majorB, decodeWord_majorC, decodeWord_majorD, decodeWord_majorE, decodeWord_majorF,
      ite_some_eq_none_iff, decodeAlu_eq_none_iff, decodeKeySkip_eq_none_iff, decodeMisc_eq_none_iff]

/-! ### The rows of Table 11 (30 R96) -/

/-- The word of an instruction is one of its row. -/
theorem row_covers_encode : ∀ i : Instr, i.row.covers (encode i)
  | .cls => Laws.RowMatch.cls
  | .ret => Laws.RowMatch.ret
  | .jp nnn => Laws.RowMatch.jp nnn
  | .call nnn => Laws.RowMatch.call nnn
  | .seImm x nn => Laws.RowMatch.seImm x nn
  | .sneImm x nn => Laws.RowMatch.sneImm x nn
  | .seReg x y => Laws.RowMatch.seReg x y
  | .ldImm x nn => Laws.RowMatch.ldImm x nn
  | .addImm x nn => Laws.RowMatch.addImm x nn
  | .ldReg x y => Laws.RowMatch.ldReg x y
  | .orReg x y => Laws.RowMatch.orReg x y
  | .andReg x y => Laws.RowMatch.andReg x y
  | .xorReg x y => Laws.RowMatch.xorReg x y
  | .addReg x y => Laws.RowMatch.addReg x y
  | .subReg x y => Laws.RowMatch.subReg x y
  | .shr x y => Laws.RowMatch.shr x y
  | .subnReg x y => Laws.RowMatch.subnReg x y
  | .shl x y => Laws.RowMatch.shl x y
  | .sneReg x y => Laws.RowMatch.sneReg x y
  | .ldI nnn => Laws.RowMatch.ldI nnn
  | .jpV0 nnn => Laws.RowMatch.jpV0 nnn
  | .rnd x nn => Laws.RowMatch.rnd x nn
  | .drw x y n => Laws.RowMatch.drw x y n
  | .skp x => Laws.RowMatch.skp x
  | .sknp x => Laws.RowMatch.sknp x
  | .ldVxDt x => Laws.RowMatch.ldVxDt x
  | .ldVxK x => Laws.RowMatch.ldVxK x
  | .ldDtVx x => Laws.RowMatch.ldDtVx x
  | .ldStVx x => Laws.RowMatch.ldStVx x
  | .addI x => Laws.RowMatch.addI x
  | .ldF x => Laws.RowMatch.ldF x
  | .ldB x => Laws.RowMatch.ldB x
  | .ldMemVx x => Laws.RowMatch.ldMemVx x
  | .ldVxMem x => Laws.RowMatch.ldVxMem x

theorem row_mem_opcodeTable (i : Instr) : i.row ∈ opcodeTable := by
  cases i <;> simp [Instr.row, opcodeTable]

theorem row_covers_of_decodeWord {w : Word} {i : Instr} (h : decodeWord w = some i) : i.row.covers w := by
  have hrow := row_covers_encode i
  rwa [(decodeWord_eq_some h).2] at hrow

/-- A row decodes as `f` when its words do and `f` gives instructions of that row alone. -/
theorem decodesAs_of_row {pattern mask : Word} {f : Word → Instr}
    (hdec : ∀ w, w &&& mask = pattern → decodeWord w = some (f w)) (hrow : ∀ w, (f w).row = ⟨pattern, mask⟩) :
    DecodesAs pattern mask f := by
  refine fun w => ⟨hdec w, fun h => ?_⟩
  have hcov := row_covers_of_decodeWord h
  rwa [hrow] at hcov

/-- The rows of Table 11 that the major opcode fixes. -/
theorem decodesAs_of_major (o : Nibble) {f : Word → Instr} (hdec : ∀ w, fieldO w = o → decodeWord w = some (f w))
    (hrow : ∀ w, (f w).row = ⟨((o ++ (0 : Nibble) : Byte) ++ ((0 : Nibble) ++ (0 : Nibble) : Byte)), 0xF000⟩) :
    DecodesAs ((o ++ (0 : Nibble) : Byte) ++ ((0 : Nibble) ++ (0 : Nibble) : Byte)) 0xF000 f :=
  decodesAs_of_row (fun w h => hdec w ((and_F000 w o).mp h)) hrow

/-- The rows of Table 11 that the major opcode and `n` fix. -/
theorem decodesAs_of_n (o n : Nibble) {f : Word → Instr}
    (hdec : ∀ w, fieldO w = o → fieldN w = n → decodeWord w = some (f w))
    (hrow : ∀ w, (f w).row = ⟨((o ++ (0 : Nibble) : Byte) ++ ((0 : Nibble) ++ n : Byte)), 0xF00F⟩) :
    DecodesAs ((o ++ (0 : Nibble) : Byte) ++ ((0 : Nibble) ++ n : Byte)) 0xF00F f :=
  decodesAs_of_row (fun w h => ((and_F00F w o n).mp h).elim (hdec w)) hrow

/-- The rows of Table 11 that the major opcode and `nn` fix. -/
theorem decodesAs_of_nn (o : Nibble) (nn : Byte) {f : Word → Instr}
    (hdec : ∀ w, fieldO w = o → fieldNN w = nn → decodeWord w = some (f w))
    (hrow : ∀ w, (f w).row = ⟨((o ++ (0 : Nibble) : Byte) ++ nn), 0xF0FF⟩) :
    DecodesAs ((o ++ (0 : Nibble) : Byte) ++ nn) 0xF0FF f :=
  decodesAs_of_row (fun w h => ((and_F0FF w o nn).mp h).elim (hdec w)) hrow

theorem decodeWord_alu {w : Word} {n : Nibble} (ho : fieldO w = 0x8) (hn : fieldN w = n) :
    decodeWord w = decodeAlu (fieldX w) (fieldY w) n := by
  rw [decodeWord_major8 w ho, hn]

theorem decodeWord_keySkip {w : Word} {nn : Byte} (ho : fieldO w = 0xE) (hnn : fieldNN w = nn) :
    decodeWord w = decodeKeySkip (fieldX w) nn := by
  rw [decodeWord_majorE w ho, hnn]

theorem decodeWord_misc {w : Word} {nn : Byte} (ho : fieldO w = 0xF) (hnn : fieldNN w = nn) :
    decodeWord w = decodeMisc (fieldX w) nn := by
  rw [decodeWord_majorF w ho, hnn]

/-! ### Each row of Table 11 and its instruction -/

theorem decodesAs_cls : DecodesAs 0x00E0 0xFFFF (fun _ => .cls) := by
  refine decodesAs_of_row (fun w h => ?_) fun _ => rfl
  rw [show w = 0x00E0 from BitVec.and_allOnes.symm.trans h]; rfl

theorem decodesAs_ret : DecodesAs 0x00EE 0xFFFF (fun _ => .ret) := by
  refine decodesAs_of_row (fun w h => ?_) fun _ => rfl
  rw [show w = 0x00EE from BitVec.and_allOnes.symm.trans h]; rfl

theorem decodesAs_jp : DecodesAs 0x1000 0xF000 (fun w => .jp (fieldNNN w)) :=
  decodesAs_of_major 0x1 decodeWord_major1 fun _ => rfl

theorem decodesAs_call : DecodesAs 0x2000 0xF000 (fun w => .call (fieldNNN w)) :=
  decodesAs_of_major 0x2 decodeWord_major2 fun _ => rfl

theorem decodesAs_seImm : DecodesAs 0x3000 0xF000 (fun w => .seImm (fieldX w) (fieldNN w)) :=
  decodesAs_of_major 0x3 decodeWord_major3 fun _ => rfl

theorem decodesAs_sneImm : DecodesAs 0x4000 0xF000 (fun w => .sneImm (fieldX w) (fieldNN w)) :=
  decodesAs_of_major 0x4 decodeWord_major4 fun _ => rfl

theorem decodesAs_seReg : DecodesAs 0x5000 0xF00F (fun w => .seReg (fieldX w) (fieldY w)) :=
  decodesAs_of_n 0x5 0x0 (fun w ho hn => (decodeWord_major5 w ho).trans (if_pos hn)) fun _ => rfl

theorem decodesAs_ldImm : DecodesAs 0x6000 0xF000 (fun w => .ldImm (fieldX w) (fieldNN w)) :=
  decodesAs_of_major 0x6 decodeWord_major6 fun _ => rfl

theorem decodesAs_addImm : DecodesAs 0x7000 0xF000 (fun w => .addImm (fieldX w) (fieldNN w)) :=
  decodesAs_of_major 0x7 decodeWord_major7 fun _ => rfl

theorem decodesAs_ldReg : DecodesAs 0x8000 0xF00F (fun w => .ldReg (fieldX w) (fieldY w)) :=
  decodesAs_of_n 0x8 0x0 (fun _ => decodeWord_alu) fun _ => rfl

theorem decodesAs_orReg : DecodesAs 0x8001 0xF00F (fun w => .orReg (fieldX w) (fieldY w)) :=
  decodesAs_of_n 0x8 0x1 (fun _ => decodeWord_alu) fun _ => rfl

theorem decodesAs_andReg : DecodesAs 0x8002 0xF00F (fun w => .andReg (fieldX w) (fieldY w)) :=
  decodesAs_of_n 0x8 0x2 (fun _ => decodeWord_alu) fun _ => rfl

theorem decodesAs_xorReg : DecodesAs 0x8003 0xF00F (fun w => .xorReg (fieldX w) (fieldY w)) :=
  decodesAs_of_n 0x8 0x3 (fun _ => decodeWord_alu) fun _ => rfl

theorem decodesAs_addReg : DecodesAs 0x8004 0xF00F (fun w => .addReg (fieldX w) (fieldY w)) :=
  decodesAs_of_n 0x8 0x4 (fun _ => decodeWord_alu) fun _ => rfl

theorem decodesAs_subReg : DecodesAs 0x8005 0xF00F (fun w => .subReg (fieldX w) (fieldY w)) :=
  decodesAs_of_n 0x8 0x5 (fun _ => decodeWord_alu) fun _ => rfl

theorem decodesAs_shr : DecodesAs 0x8006 0xF00F (fun w => .shr (fieldX w) (fieldY w)) :=
  decodesAs_of_n 0x8 0x6 (fun _ => decodeWord_alu) fun _ => rfl

theorem decodesAs_subnReg : DecodesAs 0x8007 0xF00F (fun w => .subnReg (fieldX w) (fieldY w)) :=
  decodesAs_of_n 0x8 0x7 (fun _ => decodeWord_alu) fun _ => rfl

theorem decodesAs_shl : DecodesAs 0x800E 0xF00F (fun w => .shl (fieldX w) (fieldY w)) :=
  decodesAs_of_n 0x8 0xE (fun _ => decodeWord_alu) fun _ => rfl

theorem decodesAs_sneReg : DecodesAs 0x9000 0xF00F (fun w => .sneReg (fieldX w) (fieldY w)) :=
  decodesAs_of_n 0x9 0x0 (fun w ho hn => (decodeWord_major9 w ho).trans (if_pos hn)) fun _ => rfl

theorem decodesAs_ldI : DecodesAs 0xA000 0xF000 (fun w => .ldI (fieldNNN w)) :=
  decodesAs_of_major 0xA decodeWord_majorA fun _ => rfl

theorem decodesAs_jpV0 : DecodesAs 0xB000 0xF000 (fun w => .jpV0 (fieldNNN w)) :=
  decodesAs_of_major 0xB decodeWord_majorB fun _ => rfl

theorem decodesAs_rnd : DecodesAs 0xC000 0xF000 (fun w => .rnd (fieldX w) (fieldNN w)) :=
  decodesAs_of_major 0xC decodeWord_majorC fun _ => rfl

theorem decodesAs_drw : DecodesAs 0xD000 0xF000 (fun w => .drw (fieldX w) (fieldY w) (fieldN w).toNat) :=
  decodesAs_of_major 0xD decodeWord_majorD fun _ => rfl

theorem decodesAs_skp : DecodesAs 0xE09E 0xF0FF (fun w => .skp (fieldX w)) :=
  decodesAs_of_nn 0xE 0x9E (fun _ => decodeWord_keySkip) fun _ => rfl

theorem decodesAs_sknp : DecodesAs 0xE0A1 0xF0FF (fun w => .sknp (fieldX w)) :=
  decodesAs_of_nn 0xE 0xA1 (fun _ => decodeWord_keySkip) fun _ => rfl

theorem decodesAs_ldVxDt : DecodesAs 0xF007 0xF0FF (fun w => .ldVxDt (fieldX w)) :=
  decodesAs_of_nn 0xF 0x07 (fun _ => decodeWord_misc) fun _ => rfl

theorem decodesAs_ldVxK : DecodesAs 0xF00A 0xF0FF (fun w => .ldVxK (fieldX w)) :=
  decodesAs_of_nn 0xF 0x0A (fun _ => decodeWord_misc) fun _ => rfl

theorem decodesAs_ldDtVx : DecodesAs 0xF015 0xF0FF (fun w => .ldDtVx (fieldX w)) :=
  decodesAs_of_nn 0xF 0x15 (fun _ => decodeWord_misc) fun _ => rfl

theorem decodesAs_ldStVx : DecodesAs 0xF018 0xF0FF (fun w => .ldStVx (fieldX w)) :=
  decodesAs_of_nn 0xF 0x18 (fun _ => decodeWord_misc) fun _ => rfl

theorem decodesAs_addI : DecodesAs 0xF01E 0xF0FF (fun w => .addI (fieldX w)) :=
  decodesAs_of_nn 0xF 0x1E (fun _ => decodeWord_misc) fun _ => rfl

theorem decodesAs_ldF : DecodesAs 0xF029 0xF0FF (fun w => .ldF (fieldX w)) :=
  decodesAs_of_nn 0xF 0x29 (fun _ => decodeWord_misc) fun _ => rfl

theorem decodesAs_ldB : DecodesAs 0xF033 0xF0FF (fun w => .ldB (fieldX w)) :=
  decodesAs_of_nn 0xF 0x33 (fun _ => decodeWord_misc) fun _ => rfl

theorem decodesAs_ldMemVx : DecodesAs 0xF055 0xF0FF (fun w => .ldMemVx (fieldX w)) :=
  decodesAs_of_nn 0xF 0x55 (fun _ => decodeWord_misc) fun _ => rfl

theorem decodesAs_ldVxMem : DecodesAs 0xF065 0xF0FF (fun w => .ldVxMem (fieldX w)) :=
  decodesAs_of_nn 0xF 0x65 (fun _ => decodeWord_misc) fun _ => rfl

/-- A word of a row of the table decodes, to an instruction of that row. -/
theorem decodeWord_of_covers {r : OpcodeRow} (hr : r ∈ opcodeTable) {w : Word} (h : r.covers w) :
    ∃ i, decodeWord w = some i ∧ i.row = r := by
  simp only [opcodeTable, List.cons_append, List.nil_append, List.mem_cons, List.not_mem_nil, or_false] at hr
  obtain rfl | rfl | rfl | rfl | rfl | rfl | rfl | rfl | rfl | rfl | rfl | rfl | rfl | rfl | rfl | rfl | rfl | rfl |
    rfl | rfl | rfl | rfl | rfl | rfl | rfl | rfl | rfl | rfl | rfl | rfl | rfl | rfl | rfl | rfl := hr
  · exact ⟨_, (decodesAs_cls w).mp h, rfl⟩
  · exact ⟨_, (decodesAs_ret w).mp h, rfl⟩
  · exact ⟨_, (decodesAs_jp w).mp h, rfl⟩
  · exact ⟨_, (decodesAs_call w).mp h, rfl⟩
  · exact ⟨_, (decodesAs_seImm w).mp h, rfl⟩
  · exact ⟨_, (decodesAs_sneImm w).mp h, rfl⟩
  · exact ⟨_, (decodesAs_seReg w).mp h, rfl⟩
  · exact ⟨_, (decodesAs_ldImm w).mp h, rfl⟩
  · exact ⟨_, (decodesAs_addImm w).mp h, rfl⟩
  · exact ⟨_, (decodesAs_ldReg w).mp h, rfl⟩
  · exact ⟨_, (decodesAs_orReg w).mp h, rfl⟩
  · exact ⟨_, (decodesAs_andReg w).mp h, rfl⟩
  · exact ⟨_, (decodesAs_xorReg w).mp h, rfl⟩
  · exact ⟨_, (decodesAs_addReg w).mp h, rfl⟩
  · exact ⟨_, (decodesAs_subReg w).mp h, rfl⟩
  · exact ⟨_, (decodesAs_shr w).mp h, rfl⟩
  · exact ⟨_, (decodesAs_subnReg w).mp h, rfl⟩
  · exact ⟨_, (decodesAs_shl w).mp h, rfl⟩
  · exact ⟨_, (decodesAs_sneReg w).mp h, rfl⟩
  · exact ⟨_, (decodesAs_ldI w).mp h, rfl⟩
  · exact ⟨_, (decodesAs_jpV0 w).mp h, rfl⟩
  · exact ⟨_, (decodesAs_rnd w).mp h, rfl⟩
  · exact ⟨_, (decodesAs_drw w).mp h, rfl⟩
  · exact ⟨_, (decodesAs_skp w).mp h, rfl⟩
  · exact ⟨_, (decodesAs_sknp w).mp h, rfl⟩
  · exact ⟨_, (decodesAs_ldVxDt w).mp h, rfl⟩
  · exact ⟨_, (decodesAs_ldVxK w).mp h, rfl⟩
  · exact ⟨_, (decodesAs_ldDtVx w).mp h, rfl⟩
  · exact ⟨_, (decodesAs_ldStVx w).mp h, rfl⟩
  · exact ⟨_, (decodesAs_addI w).mp h, rfl⟩
  · exact ⟨_, (decodesAs_ldF w).mp h, rfl⟩
  · exact ⟨_, (decodesAs_ldB w).mp h, rfl⟩
  · exact ⟨_, (decodesAs_ldMemVx w).mp h, rfl⟩
  · exact ⟨_, (decodesAs_ldVxMem w).mp h, rfl⟩

/-- Settles O8: a covered word decodes to an instruction of the row that covers it, so that row is the only one. -/
theorem decoderFollowsOpcodeTable : Obligations.DecoderFollowsOpcodeTable := by
  refine ⟨rfl, fun w => ⟨fun h => ?decoded, fun ⟨r, hr, hcov⟩ => ?covered⟩,
    fun w r hr r' hr' hcov hcov' => ?disjoint,
    fun w i h => ⟨row_mem_opcodeTable i, row_covers_of_decodeWord h⟩⟩
  case decoded =>
    obtain ⟨i, hi⟩ := Option.isSome_iff_exists.mp h
    exact ⟨i.row, row_mem_opcodeTable i, row_covers_of_decodeWord hi⟩
  case covered =>
    obtain ⟨i, hi, -⟩ := decodeWord_of_covers hr hcov
    exact Option.isSome_iff_exists.mpr ⟨i, hi⟩
  case disjoint =>
    obtain ⟨i, hi, rfl⟩ := decodeWord_of_covers hr hcov
    obtain ⟨i', hi', rfl⟩ := decodeWord_of_covers hr' hcov'
    rw [Option.some.inj (hi.symm.trans hi')]

end Sys2Proof

namespace Sys2Proof.Machine

/-! ### The step (30 R90, R91, R103) -/

theorem step_of_fetchFault {s : State} {f : Fault} (hs : s.fault = none) (hf : s.fetchFault = some f) :
    step s = .next (s.recordFault f) := by
  simp only [step, hs, hf]

theorem step_of_instr {s : State} {i : Instr} {rest : List Byte} (hs : s.fault = none) (hf : s.fetchFault = none)
    (hd : decode s.fetchBytes = .instr i rest) : step s = exec i s.advance := by
  simp only [step, hs, hf, hd]

theorem step_of_rejected {s : State} {why : Reject} (hs : s.fault = none) (hf : s.fetchFault = none)
    (hd : decode s.fetchBytes = .rejected why) : step s = .next s.advance := by
  simp only [step, hs, hf, hd]

/-- What a fetch decodes to takes both its bytes. -/
theorem State.eq_nil_of_decode_fetchBytes {s : State} {i : Instr} {rest : List Byte}
    (h : decode s.fetchBytes = .instr i rest) : rest = [] := by
  have hlen := congrArg List.length (decode_eq_instr_iff.mp h).2
  simpa [State.fetchBytes, encodeBytes] using hlen

/-- Settles O1: what decodes is an encoding, which takes both bytes of the fetch. -/
theorem stepRunsDecodedInstruction : Obligations.StepRunsDecodedInstruction :=
  fun _ _ _ hs hf hd =>
    ⟨(decode_eq_instr_iff.mp hd).1, State.eq_nil_of_decode_fetchBytes hd, step_of_instr hs hf hd⟩

theorem decode_bytes_of_undecoded {w : Word} (h : undecodedSpace w) :
    decode [hiByte w, loByte w] = .rejected (.undecoded w) := by
  rw [decode_two, wordOfBytes_bytes, (decodeWord_eq_none_iff w).mpr h]

/-- Settles O2: the words of Table 12 are those that the decoder rejects, and a rejected word only advances `pc`. -/
theorem undecodedWordOnlyAdvancesPc : Obligations.UndecodedWordOnlyAdvancesPc := by
  refine ⟨decodeWord_eq_none_iff, fun s w hs hf hbytes hw => ?_⟩
  exact step_of_rejected hs hf (hbytes ▸ decode_bytes_of_undecoded hw)

/-- Settles O3: from 4095 up the second address is past memory, which `Fault` records and `Wrap` reduces. -/
theorem fetchPastMemory : Obligations.FetchPastMemory := by
  refine fun s hs hpc => ⟨fun hfault => ?fault, fun hwrap => ⟨s.fetchFault_eq_none.mpr (.inl hwrap), ?bytes⟩⟩
  case fault =>
    have hpast : memSize < s.pc.toNat + 2 := Nat.lt_succ_of_le (Nat.succ_le_succ hpc)
    exact step_of_fetchFault hs ((s.fetchFault_eq_some _).mpr ⟨hfault, hpast, rfl⟩)
  case bytes => simp only [State.fetchBytes, State.readByte, State.physical_of_wrap hwrap]

/-! ### Every step returns (30 R90) -/

theorem State.checkedAtIndex_returns (s : State) (count : Nat) (go : State) :
    ∃ t, s.checkedAtIndex count go = .next t := by
  unfold State.checkedAtIndex
  split <;> exact ⟨_, rfl⟩

theorem State.writeWithFlag_returns (s : State) (x : Reg) (result : Byte) (flag : Bool) :
    ∃ t, s.writeWithFlag x result flag = .next t := by
  unfold State.writeWithFlag
  split <;> exact ⟨_, rfl⟩

theorem State.skipOnKey_returns (s : State) (x : Reg) (want : Bool) : ∃ t, s.skipOnKey x want = .next t := by
  unfold State.skipOnKey
  split <;> exact ⟨_, rfl⟩

theorem execRet_returns (s : State) : ∃ t, execRet s = .next t := by
  unfold execRet
  split <;> exact ⟨_, rfl⟩

theorem execCall_returns (nnn : Addr12) (s : State) : ∃ t, execCall nnn s = .next t := by
  unfold execCall
  split <;> exact ⟨_, rfl⟩

theorem execLdVxK_returns (x : Reg) (s : State) : ∃ t, execLdVxK x s = .next t := by
  unfold execLdVxK
  split <;> exact ⟨_, rfl⟩

/-- An instruction gives a next state: where it raises a fault, the one with FAULT written. -/
theorem exec_returns (i : Instr) (s : State) : ∃ t, exec i s = .next t := by
  cases i with
  | ret => exact execRet_returns s
  | call => exact execCall_returns _ s
  | ldVxK => exact execLdVxK_returns _ s
  | skp | sknp => exact s.skipOnKey_returns _ _
  | addReg | subReg | shr | subnReg | shl => exact s.writeWithFlag_returns _ _ _
  | ldB | ldMemVx | ldVxMem => exact s.checkedAtIndex_returns _ _
  | _ => exact ⟨_, rfl⟩

/-- Settles O47: a step that is not stopped records a fault, advances `pc` or runs an instruction. -/
theorem stepAlwaysReturns : Obligations.StepAlwaysReturns := by
  refine ⟨fun s hs => ?_, exec_returns⟩
  obtain ⟨f, hf, -⟩ | ⟨-, f, -, h⟩ | ⟨-, -, i, rest, -, h⟩ | ⟨-, -, w, -, h⟩ := step_cases s
  · rw [hs] at hf; cases hf
  · exact ⟨_, h⟩
  · rw [h]; exact exec_returns i s.advance
  · exact ⟨_, h⟩

end Sys2Proof.Machine

/-! PROOFS of the family 40_control_flow: what the jumps, the skips, the call and the return do to `pc` and the stack, and
that nothing else moves `pc`. A call and its return restore `pc` because the return reads the slot that the call wrote
(`exec_call_pushes`, `exec_ret_pops`). -/

namespace Sys2Proof.Machine

/-! ### The jumps (40 R122, R123) -/

theorem zextByte_toNat (b : Byte) : (zextByte b).toNat = b.toNat :=
  BitVec.toNat_setWidth_of_le (by decide)

/-- The target of Bnnn is at most 0xFFF + 0xFF, so the sum does not wrap. -/
theorem addrOperand_add_zextByte_toNat (nnn : Addr12) (b : Byte) :
    (addrOperand nnn + zextByte b).toNat = nnn.toNat + b.toNat := by
  rw [BitVec.toNat_add, addrOperand_toNat, zextByte_toNat]
  omega

/-- Settles O11: both jumps write `pc` alone, and the sum of Bnnn does not wrap. -/
theorem jumpsSetPc : Obligations.JumpsSetPc :=
  ⟨decodesAs_jp, decodesAs_jpV0, fun nnn s =>
    ⟨⟨_, rfl, addrOperand_toNat nnn, onlyRegs_jump s _⟩,
      ⟨_, rfl, addrOperand_add_zextByte_toNat nnn (s.readV 0), onlyRegs_jump s _⟩⟩⟩

/-! ### The skips (40 R124 to R127) -/

theorem State.skipIf_beq_pc {α : Type} [DecidableEq α] (s : State) (a b : α) :
    (s.skipIf (a == b)).pc = if a = b then s.pc + 2 else s.pc := by
  simp only [State.skipIf_pc, beq_iff_eq]

theorem State.skipIf_bne_pc {α : Type} [DecidableEq α] (s : State) (a b : α) :
    (s.skipIf (a != b)).pc = if a = b then s.pc else s.pc + 2 := by
  simp only [State.skipIf_pc, bne_iff_ne, ite_not]

/-- Settles O12: each form is `State.skipIf` on its comparison. -/
theorem registerSkips : Obligations.RegisterSkips :=
  ⟨decodesAs_seImm, decodesAs_sneImm, decodesAs_seReg, decodesAs_sneReg, fun x y nn s =>
    ⟨⟨_, rfl, s.skipIf_beq_pc (s.readV x) nn, onlyRegs_skipIf s _⟩,
      ⟨_, rfl, s.skipIf_bne_pc (s.readV x) nn, onlyRegs_skipIf s _⟩,
      ⟨_, rfl, s.skipIf_beq_pc (s.readV x) (s.readV y), onlyRegs_skipIf s _⟩,
      ⟨_, rfl, s.skipIf_bne_pc (s.readV x) (s.readV y), onlyRegs_skipIf s _⟩⟩⟩

/-! ### The call and the return (40 R120, R121) -/

/-- A state that differs in the stack, SP and `pc` alone is framed by the stack. -/
theorem onlyStack_of_eq {s t : State} (h : t = { s with stack := t.stack, sp := t.sp, pc := t.pc }) :
    OnlyStack s t := by
  rw [h]
  exact ⟨fun _ _ => rfl, fun _ _ => rfl, rfl, ⟨rfl, rfl⟩, rfl, rfl, rfl, rfl⟩

/-- A return with a word on the stack goes to the word below SP and keeps the slots. -/
theorem exec_ret_pops {s : State} (h : s.sp.val ≠ 0) :
    ∃ t, exec .ret s = .next t ∧ t.sp.val + 1 = s.sp.val ∧ s.stack[s.sp.val - 1]? = some t.pc ∧
      t.stack = s.stack ∧ OnlyStack s t :=
  ⟨_, execRet_of_pos s h, Nat.succ_pred_eq_of_ne_zero h, Vector.getElem?_eq_getElem _, rfl, onlyStack_of_eq rfl⟩

theorem exec_ret_underflows {s : State} (h : s.sp.val = 0) :
    exec .ret s = .next (raisedAt s (.stackUnderflow (s.pc - 2))) := by
  simp only [exec, execRet, s.pop_eq_none.mpr h, State.raise_eq, State.instrAddr_eq]

/-- Settles O9: the pop answers the word below SP, and no word exactly when SP is 0. -/
theorem returnPopsTheStack : Obligations.ReturnPopsTheStack :=
  ⟨decodesAs_ret, fun _ => ⟨exec_ret_pops, exec_ret_underflows⟩⟩

/-- A call with a free slot stores the advanced `pc` in it, moves SP past it and goes to `nnn`. -/
theorem exec_call_pushes {s : State} (nnn : Addr12) (h : s.sp.val < 16) :
    ∃ t, exec (.call nnn) s = .next t ∧ t.pc.toNat = nnn.toNat ∧ t.stack[s.sp.val]? = some s.pc ∧
      t.sp.val = s.sp.val + 1 ∧ (∀ k, k ≠ s.sp.val → t.stack[k]? = s.stack[k]?) ∧ OnlyStack s t :=
  ⟨_, execCall_of_lt nnn s h, addrOperand_toNat nnn, Vector.getElem?_set_self h, rfl,
    fun _ hk => Vector.getElem?_set_ne h hk.symm, onlyStack_of_eq rfl⟩

theorem exec_call_overflows {s : State} (nnn : Addr12) (h : s.sp.val = 16) :
    exec (.call nnn) s = .next (raisedAt s (.stackOverflow (s.pc - 2))) := by
  simp only [exec, execCall, (s.push_eq_none s.pc).mpr h, State.raise_eq, State.instrAddr_eq]

/-- Settles O10: the push takes the slot at SP, and there is none exactly when SP is 16. -/
theorem callPushesReturnAddress : Obligations.CallPushesReturnAddress :=
  ⟨decodesAs_call, fun nnn _ => ⟨exec_call_pushes nnn, exec_call_overflows nnn⟩⟩

/-- No state that a raised fault leaves has FAULT = none. -/
theorem raisedAt_fault_ne_none (s : State) (f : Fault) : (raisedAt s f).fault ≠ none := nofun

/-- A call that ends without a fault found a free slot. -/
theorem sp_lt_of_exec_call {nnn : Addr12} {s t : State} (h : exec (.call nnn) s = .next t) (ht : t.fault = none) :
    s.sp.val < 16 := by
  refine Nat.lt_of_le_of_ne (Nat.le_of_lt_succ s.sp.isLt) fun hfull => ?_
  rw [exec_call_overflows nnn hfull] at h
  cases h
  exact raisedAt_fault_ne_none _ _ ht

/-- Settles O13: the return reads the slot below SP, which is the one the call wrote. -/
theorem callThenReturnRestores : Obligations.CallThenReturnRestores := by
  intro nnn s t u _ hcall ht hstack hsp
  obtain ⟨t', hpush, -, hslot, hup, -, -⟩ := exec_call_pushes nnn (sp_lt_of_exec_call hcall ht)
  obtain rfl : t = t' := Host.Outcome.next.inj (hcall.symm.trans hpush)
  have husp : u.sp.val = s.sp.val + 1 := by rw [hsp, hup]
  obtain ⟨w, hret, hdown, hread, hkept, hframe⟩ := exec_ret_pops (s := u) (by omega)
  refine ⟨w, hret, ?pc, Fin.ext (by omega), hkept, hframe⟩
  case pc =>
    rw [hstack, husp, Nat.add_sub_cancel, hslot] at hread
    exact (Option.some.inj hread).symm

/-! ### The writers of `pc` (40 R128, 10 R37) -/

/-- Settles O53: a skip that moves `pc` advances it, a key wait that moves it rewinds it, the transfers are named, and every
other instruction moves it only by raising a fault. -/
theorem pcWriters : Obligations.PcWriters := by
  intro i s t _ h ht hne
  have hshape := exec_shape i s t h
  cases i with
  | ret => exact .inr (.inl rfl)
  | jp nnn | call nnn | jpV0 nnn => exact .inr (.inr (.inl ⟨nnn, by simp⟩))
  | seImm | sneImm | seReg | sneReg =>
    obtain rfl | rfl := hshape
    · exact absurd rfl hne
    · exact .inl ⟨rfl, by simp⟩
  | skp | sknp =>
    obtain ⟨-, rfl⟩ | rfl | rfl := hshape
    · exact absurd ht (raisedAt_fault_ne_none _ _)
    · exact absurd rfl hne
    · exact .inl ⟨rfl, by simp⟩
  | ldVxK x =>
    obtain ⟨_, rfl⟩ | rfl := hshape
    · exact absurd rfl hne
    · exact .inr (.inr (.inr ⟨x, rfl, rfl⟩))
  | addReg | subReg | shr | subnReg | shl =>
    obtain ⟨-, -, rfl⟩ | ⟨_, _, rfl⟩ := hshape
    · exact absurd ht (raisedAt_fault_ne_none _ _)
    · exact absurd rfl hne
  | ldB | ldMemVx =>
    obtain ⟨-, -, rfl⟩ | ⟨bs, rfl⟩ := hshape
    · exact absurd ht (raisedAt_fault_ne_none _ _)
    · exact absurd (s.storeBytes_pc _ bs) hne
  | ldVxMem x =>
    obtain ⟨-, -, rfl⟩ | rfl := hshape
    · exact absurd ht (raisedAt_fault_ne_none _ _)
    · obtain ⟨v, hv⟩ := State.loadRegsThrough_eq s x
      exact absurd (congrArg State.pc hv) hne
  | ldImm | addImm | ldReg | orReg | andReg | xorReg | ldVxDt | rnd =>
    obtain ⟨_, rfl⟩ := hshape
    exact absurd rfl hne
  | cls | drw | ldI | addI | ldF | ldDtVx | ldStVx => exact absurd (congrArg State.pc (exec_frame h)) hne

end Sys2Proof.Machine

/-! PROOFS of the family 41_register_immediate: 6xnn, 7xnn and Cxnn write Vx and no other register, VF included unless it
is Vx. Each is one `State.writeV`, so its frame is that of the write; Cxnn also moves the counter of draws. -/

namespace Sys2Proof.Machine

/-! ### Load and add (41 R140, R141) -/

/-- 6xnn loads `nn` into Vx and leaves everything else. -/
theorem exec_ldImm_loads (x : Reg) (nn : Byte) (s : State) :
    ∃ t, exec (.ldImm x nn) s = .next t ∧ t.readV x = nn ∧ t.pc = s.pc ∧ OnlyRegs [x] s t :=
  ⟨s.writeV x nn, rfl, s.readV_writeV_self x nn, s.writeV_pc x nn, onlyRegs_writeV s x nn⟩

/-- 7xnn adds `nn` to Vx modulo 256 and leaves everything else: no flag is written. -/
theorem exec_addImm_adds (x : Reg) (nn : Byte) (s : State) :
    ∃ t, exec (.addImm x nn) s = .next t ∧ (t.readV x).toNat = ((s.readV x).toNat + nn.toNat) % 256 ∧
      t.pc = s.pc ∧ OnlyRegs [x] s t := by
  refine ⟨s.writeV x (s.readV x + nn), rfl, ?sum, s.writeV_pc x _, onlyRegs_writeV s x _⟩
  case sum => rw [State.readV_writeV_self, BitVec.toNat_add]

/-- Settles O15: each form is one write of Vx, of `nn` and of the sum. -/
theorem immediateLoadAndAdd : Obligations.ImmediateLoadAndAdd :=
  ⟨decodesAs_ldImm, decodesAs_addImm, fun x nn s => ⟨exec_ldImm_loads x nn s, exec_addImm_adds x nn s⟩⟩

/-! ### The random byte (41 R145, log entry 4) -/

/-- A masked byte has no bit outside its mask. -/
theorem and_mask_and_not_mask (r nn : Byte) : r &&& nn &&& ~~~nn = 0 := by
  rw [BitVec.and_assoc, BitVec.and_not_self]
  exact BitVec.and_zero

/-- With the draw `r`, Cxnn leaves `r &&& nn` in Vx. -/
theorem readV_rndWith_advanceDraws (r : Byte) (x : Reg) (nn : Byte) (s : State) :
    (rndWith r x nn s).advanceDraws.readV x = r &&& nn :=
  s.readV_writeV_self x (r &&& nn)

/-- Settles O16: the bound of the mask holds of every byte that can be drawn, so of the one at the counter. -/
theorem randomByteIsMasked : Obligations.RandomByteIsMasked := by
  refine ⟨decodesAs_rnd, fun x nn s => ?_⟩
  have hread : (rndWith s.drawnByte x nn s).advanceDraws.readV x = Config.randomByte s.draws &&& nn :=
    readV_rndWith_advanceDraws s.drawnByte x nn s
  refine ⟨_, rfl, hread, ?outside, rfl, rfl, onlyRegs_rnd s s.drawnByte x nn⟩
  case outside => rw [hread, and_mask_and_not_mask]

end Sys2Proof.Machine

/-! PROOFS of the family 42_alu: the copy and the logic are one `State.writeV`, and the five flag producers are one
`State.writeWithFlag`. So their frames, the flag that stays with x = 15 and the refusal are said once for that operation
(`State.writeWithFlag_writes`, `State.writeWithFlag_refuses`), and each form adds the value of its result and of its flag. -/

namespace Sys2Proof.Machine

/-! ### The copy and the logic (42 R152 to R155) -/

/-- A register write, as the outcome of an instruction: the register reads the byte, and nothing else changes. -/
theorem State.writeV_writes (s : State) (x : Reg) (b : Byte) :
    ∃ t, (.next (s.writeV x b) : Result) = .next t ∧ t.readV x = b ∧ t.pc = s.pc ∧ OnlyRegs [x] s t :=
  ⟨s.writeV x b, rfl, s.readV_writeV_self x b, s.writeV_pc x b, onlyRegs_writeV s x b⟩

/-- Settles O17: each form is one write of Vx. -/
theorem copyAndLogic : Obligations.CopyAndLogic :=
  ⟨decodesAs_ldReg, decodesAs_orReg, decodesAs_andReg, decodesAs_xorReg, fun x y s =>
    ⟨s.writeV_writes x (s.readV y), s.writeV_writes x (s.readV x ||| s.readV y),
      s.writeV_writes x (s.readV x &&& s.readV y), s.writeV_writes x (s.readV x ^^^ s.readV y)⟩⟩

/-! ### The result and then the flag (42 R150, R151) -/

/-- The outcome `r` of an instruction of `s` is a state with `result` in Vx, unless Vx is VF, and `flag` in VF, and with
everything else as in `s`. -/
def WritesResultThenFlag (r : Result) (s : State) (x : Reg) (result flag : Nat) : Prop :=
  ∃ t, r = .next t ∧ (x ≠ 15 → (t.readV x).toNat = result) ∧ (t.readV 15).toNat = flag ∧ t.pc = s.pc ∧
    OnlyRegs [x, 15] s t

theorem State.writeWithFlag_writes {s : State} {x : Reg} {result : Byte} {flag : Bool} {n f : Nat}
    (h : ¬(x = 15 ∧ s.config.vfDest = .refuse)) (hresult : result.toNat = n) (hflag : (flagByte flag).toNat = f) :
    WritesResultThenFlag (s.writeWithFlag x result flag) s x n f := by
  refine ⟨(s.writeV x result).writeV Reg.vf (flagByte flag), if_neg h, fun hx => ?vx, ?vf, rfl,
    onlyRegs_writeV_writeV s x Reg.vf result (flagByte flag)⟩
  case vx => rw [State.readV_writeV_ne _ _ _ _ hx, State.readV_writeV_self, hresult]
  case vf => rw [State.readV_writeV_self, hflag]

theorem State.writeWithFlag_refuses {s : State} {x : Reg} (result : Byte) (flag : Bool)
    (h : x = 15 ∧ s.config.vfDest = .refuse) :
    s.writeWithFlag x result flag = .next (raisedAt s (.vfDestRefused (s.pc - 2))) :=
  if_pos h

/-- With x = 15 the result is lost, the flag stays, and VF is the one register that changes. -/
theorem WritesResultThenFlag.flag_stays {r : Result} {s : State} {n f : Nat} (h : WritesResultThenFlag r s 15 n f) :
    ∃ t, r = .next t ∧ (t.readV 15).toNat = f ∧ t.pc = s.pc ∧ OnlyRegs [15] s t := by
  obtain ⟨t, hr, -, hflag, hpc, hregs, hrest⟩ := h
  exact ⟨t, hr, hflag, hpc, fun q hq => hregs q (by simpa using hq), hrest⟩

/-! ### The values of the results and of the flags -/

/-- A subtraction of bytes wraps at 256. -/
theorem sub_toNat (a b : Byte) : (a - b).toNat = (a.toNat + 256 - b.toNat) % 256 := by
  rw [BitVec.toNat_sub]
  omega

theorem ushiftRight_one_toNat (b : Byte) : (b >>> 1).toNat = b.toNat / 2 := by
  rw [BitVec.toNat_ushiftRight, Nat.shiftRight_one]

theorem shiftLeft_one_toNat (b : Byte) : (b <<< 1).toNat = b.toNat * 2 % 256 := by
  rw [BitVec.toNat_shiftLeft, Nat.shiftLeft_eq]

theorem flagByte_decide_toNat (p : Prop) [Decidable p] : (flagByte (decide p)).toNat = if p then 1 else 0 := by
  by_cases hp : p <;> simp [flagByte, hp]

theorem flagByte_carryOut_toNat (a b : Byte) :
    (flagByte (carryOut a b)).toNat = if 255 < a.toNat + b.toNat then 1 else 0 :=
  flagByte_decide_toNat _

theorem flagByte_notBorrow_toNat (minuend subtrahend : Byte) :
    (flagByte (notBorrow minuend subtrahend)).toNat = if subtrahend.toNat ≤ minuend.toNat then 1 else 0 :=
  flagByte_decide_toNat _

/-- The flag of a bit is the bit as a digit of the number. -/
theorem flagByte_getLsbD_toNat (b : Byte) (i : Nat) : (flagByte (b.getLsbD i)).toNat = b.toNat / 2 ^ i % 2 := by
  rw [← BitVec.testBit_toNat, Nat.testBit_eq_decide_div_mod_eq, flagByte_decide_toNat]
  split <;> omega

theorem flagByte_outRight_toNat (b : Byte) : (flagByte (outRight b)).toNat = b.toNat % 2 := by
  rw [outRight, flagByte_getLsbD_toNat, pow_zero, Nat.div_one]

/-- Bit 7 is the highest digit of a byte, so nothing stands above it. -/
theorem flagByte_outLeft_toNat (b : Byte) : (flagByte (outLeft b)).toNat = b.toNat / 128 := by
  rw [outLeft, flagByte_getLsbD_toNat]
  omega

/-! ### The flag producers (42 R156 to R160) -/

section
variable {x : Reg} {s : State} (y : Reg) (h : ¬(x = 15 ∧ s.config.vfDest = .refuse))
include h

theorem exec_addReg_writes :
    WritesResultThenFlag (exec (.addReg x y) s) s x (((s.readV x).toNat + (s.readV y).toNat) % 256)
      (if 255 < (s.readV x).toNat + (s.readV y).toNat then 1 else 0) :=
  State.writeWithFlag_writes h (BitVec.toNat_add _ _) (flagByte_carryOut_toNat _ _)

theorem exec_subReg_writes :
    WritesResultThenFlag (exec (.subReg x y) s) s x (((s.readV x).toNat + 256 - (s.readV y).toNat) % 256)
      (if (s.readV y).toNat ≤ (s.readV x).toNat then 1 else 0) :=
  State.writeWithFlag_writes h (sub_toNat _ _) (flagByte_notBorrow_toNat _ _)

theorem exec_subnReg_writes :
    WritesResultThenFlag (exec (.subnReg x y) s) s x (((s.readV y).toNat + 256 - (s.readV x).toNat) % 256)
      (if (s.readV x).toNat ≤ (s.readV y).toNat then 1 else 0) :=
  State.writeWithFlag_writes h (sub_toNat _ _) (flagByte_notBorrow_toNat _ _)

theorem exec_shr_writes :
    WritesResultThenFlag (exec (.shr x y) s) s x ((s.readV x).toNat / 2) ((s.readV x).toNat % 2) :=
  State.writeWithFlag_writes h (ushiftRight_one_toNat _) (flagByte_outRight_toNat _)

theorem exec_shl_writes :
    WritesResultThenFlag (exec (.shl x y) s) s x ((s.readV x).toNat * 2 % 256) ((s.readV x).toNat / 128) :=
  State.writeWithFlag_writes h (shiftLeft_one_toNat _) (flagByte_outLeft_toNat _)

end

/-- Each of the five forms is refused with x = 15 under `Refuse` (42 R150). -/
theorem exec_flagProducer_refuses {x : Reg} {s : State} (y : Reg) (h : x = 15 ∧ s.config.vfDest = .refuse) :
    ∀ i ∈ [Instr.addReg x y, Instr.subReg x y, Instr.shr x y, Instr.subnReg x y, Instr.shl x y],
      exec i s = .next (raisedAt s (.vfDestRefused (s.pc - 2))) := by
  intro i hi
  simp only [List.mem_cons, List.not_mem_nil, or_false] at hi
  obtain rfl | rfl | rfl | rfl | rfl := hi <;> exact State.writeWithFlag_refuses _ _ h

/-- Settles O18: the sum of bytes is modulo 256, and `carryOut` looks at the sum before it is reduced. -/
theorem addSetsCarry : Obligations.AddSetsCarry :=
  ⟨decodesAs_addReg, fun _ y _ => ⟨exec_addReg_writes y, fun h => exec_flagProducer_refuses y h _ (by simp)⟩⟩

/-- Settles O19: SUBN is SUB with minuend and subtrahend exchanged, in the result and in the flag. -/
theorem subtractSetsNotBorrow : Obligations.SubtractSetsNotBorrow :=
  ⟨decodesAs_subReg, decodesAs_subnReg, fun _ y _ =>
    ⟨fun h => ⟨exec_subReg_writes y h, exec_subnReg_writes y h⟩, fun h =>
      ⟨exec_flagProducer_refuses y h _ (by simp), exec_flagProducer_refuses y h _ (by simp)⟩⟩⟩

/-- Settles O20: the bit shifted out is the remainder of halving, or the highest digit. -/
theorem shiftsSetBitOut : Obligations.ShiftsSetBitOut :=
  ⟨decodesAs_shr, decodesAs_shl, fun _ y _ =>
    ⟨fun h => ⟨exec_shr_writes y h, exec_shl_writes y h⟩, fun h =>
      ⟨exec_flagProducer_refuses y h _ (by simp), exec_flagProducer_refuses y h _ (by simp)⟩⟩⟩

/-- Settles O21: under `FlagLast` nothing is refused, and the flag written last is what VF holds. -/
theorem vfAsDestinationOfFlagProducers : Obligations.VfAsDestinationOfFlagProducers := by
  refine fun y s => ⟨fun hlast => ?flagLast, fun hrefuse => exec_flagProducer_refuses y ⟨rfl, hrefuse⟩⟩
  case flagLast =>
    have h : ¬((15 : Reg) = 15 ∧ s.config.vfDest = .refuse) := by simp [hlast]
    exact ⟨(exec_addReg_writes y h).flag_stays, (exec_subReg_writes y h).flag_stays, (exec_shr_writes y h).flag_stays,
      (exec_subnReg_writes y h).flag_stays, (exec_shl_writes y h).flag_stays⟩

end Sys2Proof.Machine

/-! PROOFS of the family 43_index_memory: the writes of `I`, and what Fx33, Fx55 and Fx65 store and load. These three are
one `State.checkedAtIndex`, so that they pass or raise is said once for that operation (`State.checkedAtIndex_passes`,
`State.checkedAtIndex_raises`); each form adds the bytes it stores or loads, and the frame of that store or load. -/

namespace Sys2Proof.Machine

/-! ### The writes of `I` (43 R170 to R172) -/

/-- Fx1E wraps at 65536. -/
theorem add_zextByte_toNat (w : Word) (b : Byte) : (w + zextByte b).toNat = (w.toNat + b.toNat) % 65536 := by
  rw [BitVec.toNat_add, zextByte_toNat]

/-- Settles O22: each form is one write of `I`, of the address, of the wrapping sum, or of five times the byte. -/
theorem indexRegisterWrites : Obligations.IndexRegisterWrites :=
  ⟨decodesAs_ldI, decodesAs_addI, decodesAs_ldF, fun nnn x s =>
    ⟨⟨_, rfl, addrOperand_toNat nnn, onlyIndex_writeIndex s _⟩,
      ⟨_, rfl, add_zextByte_toNat s.index (s.readV x), onlyIndex_writeIndex s _⟩,
      ⟨_, rfl, fontAddress_toNat (s.readV x), onlyIndex_writeIndex s _⟩⟩⟩

/-! ### The check of the addresses from `I` up to `I + n` (43 R180) -/

theorem State.checkedAtIndex_passes {s : State} {n : Nat} (go : State)
    (h : s.config.memOob = .wrap ∨ s.index.toNat + n < 4096) : s.checkedAtIndex (n + 1) go = .next go := by
  have hpass : s.firstOutOfRange s.index.toNat (n + 1) = none :=
    (State.firstOutOfRange_eq_none ..).mpr (h.imp_right .inr)
  simp only [State.checkedAtIndex, hpass]

/-- The check answers the lowest address past memory, and the instruction changes nothing but FAULT. -/
theorem State.checkedAtIndex_raises {s : State} {n : Nat} (go : State)
    (h : s.config.memOob = .fault ∧ 4096 ≤ s.index.toNat + n) :
    s.checkedAtIndex (n + 1) go = .next (raisedAt s (.memOutOfRange (max s.index.toNat 4096) (s.pc - 2))) := by
  obtain ⟨hpolicy, hpast⟩ := h
  have hfirst : s.firstOutOfRange s.index.toNat (n + 1) = some (max s.index.toNat 4096) :=
    (State.firstOutOfRange_eq_some ..).mpr ⟨hpolicy, n.succ_pos, Nat.lt_succ_of_le hpast, rfl⟩
  simp only [State.checkedAtIndex, hfirst, State.raise_eq, State.instrAddr_eq]

/-! ### The decimal digits (43 R174) -/

/-- Every digit fits a byte. -/
theorem bcdDigits_map_toNat (b : Byte) :
    (bcdDigits b).map BitVec.toNat = [b.toNat / 100, b.toNat / 10 % 10, b.toNat % 10] := by
  simp only [bcdDigits, List.map_cons, List.map_nil, BitVec.toNat_ofNat, List.cons.injEq, and_true]
  omega

/-- The access at `I + k` reads the digit at place `k` that Fx33 stored there. -/
theorem State.peek_storeBytes_bcdDigits {s : State} (hinv : s.Inv) (b : Byte)
    (hrange : s.config.memOob = .wrap ∨ s.index.toNat + 2 < 4096) (k : Nat) (hk : k < 3) :
    ((s.storeBytes s.index.toNat (bcdDigits b)).peek (s.physical (s.index.toNat + k))).toNat =
      [b.toNat / 100, b.toNat / 10 % 10, b.toNat % 10][k] := by
  have hplace : k < (bcdDigits b).length := hk
  have hfit : (bcdDigits b).length ≤ memSize := Nat.le_of_ble_eq_true rfl
  rw [State.peek_storeBytes s _ (bcdDigits b) k hinv hplace hfit hrange, ← List.getElem_map BitVec.toNat]
  · exact List.getElem_of_eq (bcdDigits_map_toNat b) _
  · rwa [List.length_map]

/-- An Fx33 whose accesses are allowed stores the hundreds, the tens and the ones, and no other byte. -/
theorem exec_ldB_stores {s : State} (hinv : s.Inv) (x : Reg)
    (hrange : s.config.memOob = .wrap ∨ s.index.toNat + 2 < 4096) :
    ∃ t, exec (.ldB x) s = .next t ∧
      (t.peek (s.physical s.index.toNat)).toNat = (s.readV x).toNat / 100 ∧
      (t.peek (s.physical (s.index.toNat + 1))).toNat = (s.readV x).toNat / 10 % 10 ∧
      (t.peek (s.physical (s.index.toNat + 2))).toNat = (s.readV x).toNat % 10 ∧
      OnlyMemory [s.physical s.index.toNat, s.physical (s.index.toNat + 1), s.physical (s.index.toNat + 2)] s t := by
  have hdigit := State.peek_storeBytes_bcdDigits hinv (s.readV x) hrange
  exact ⟨_, State.checkedAtIndex_passes _ hrange, hdigit 0 (by decide), hdigit 1 (by decide), hdigit 2 (by decide),
    onlyMemory_storeBytes s _ _ hinv⟩

/-- Settles O23: the check comes first, and the three digits fit their bytes. -/
theorem bcdStoresThreeDigits : Obligations.BcdStoresThreeDigits :=
  ⟨decodesAs_ldB, fun x _ hinv => ⟨exec_ldB_stores hinv x, State.checkedAtIndex_raises _⟩⟩

/-! ### The register lists (43 R176, R178) -/

/-- An Fx55 whose accesses are allowed stores V0 to Vx, and no other byte. -/
theorem exec_ldMemVx_stores {s : State} (hinv : s.Inv) (x : Reg)
    (hrange : s.config.memOob = .wrap ∨ s.index.toNat + x.val < 4096) :
    ∃ t, exec (.ldMemVx x) s = .next t ∧
      (∀ k : Reg, k ≤ x → t.peek (s.physical (s.index.toNat + k.val)) = s.readV k) ∧
      OnlyMemory ((List.range (x.val + 1)).map (fun k => s.physical (s.index.toNat + k))) s t := by
  refine ⟨_, State.checkedAtIndex_passes _ hrange, fun k hk => ?bytes, ?frame⟩
  case bytes =>
    have hread := State.readByte_storeBytes_regsThrough hinv hk hrange
    rwa [State.readByte, State.physical_congr (s.storeBytes_config _ _)] at hread
  case frame =>
    have hframe := onlyMemory_storeBytes s s.index.toNat (s.regsThrough x) hinv
    rwa [State.length_regsThrough] at hframe

/-- Settles O24: the check comes first, and the byte at place `k` of the list of registers is Vk. -/
theorem storeRegistersThroughVx : Obligations.StoreRegistersThroughVx :=
  ⟨decodesAs_ldMemVx, fun x _ hinv => ⟨exec_ldMemVx_stores hinv x, State.checkedAtIndex_raises _⟩⟩

/-- An Fx65 whose accesses are allowed loads V0 to Vx, and no other register. -/
theorem exec_ldVxMem_loads {s : State} (x : Reg) (hrange : s.config.memOob = .wrap ∨ s.index.toNat + x.val < 4096) :
    ∃ t, exec (.ldVxMem x) s = .next t ∧
      (∀ k : Reg, k ≤ x → t.readV k = s.peek (s.physical (s.index.toNat + k.val))) ∧
      t.pc = s.pc ∧ OnlyRegs ((List.finRange 16).filter (fun k => decide (k ≤ x))) s t := by
  refine ⟨_, State.checkedAtIndex_passes _ hrange, fun k hk => ?regs, ?pc, onlyRegs_loadRegsThrough s x⟩
  case regs => rw [State.readV_loadRegsThrough, if_pos (Fin.le_def.mp hk), State.readByte]
  case pc =>
    obtain ⟨v, hv⟩ := s.loadRegsThrough_eq x
    rw [hv]

/-- Settles O25: the check comes first, and the loads read memory as it was, since no load changes memory or `I`. -/
theorem loadRegistersThroughVx : Obligations.LoadRegistersThroughVx :=
  ⟨decodesAs_ldVxMem, fun x _ => ⟨exec_ldVxMem_loads x, State.checkedAtIndex_raises _⟩⟩

end Sys2Proof.Machine

/-! PROOFS of the family 44_display: the clear, and the draw as the exclusive or with the sprite. `Inverts` says of a part of
a draw which cells it inverts and when it collides. Parts that share no cell compose (`Inverts.comp`), so the loop over the
bits of a row and the loop over the rows are one induction (`Inverts.foldl_range`): the bits of a row fall in different
columns and the rows of a sprite in different rows, since 8 is at most 64 and 15 at most 32 (44 R194). -/

namespace Sys2Proof.Machine

/-! ### The frame of the display instructions -/

/-- A state that differs in the registers and the framebuffer alone is framed by the registers that read differently. -/
theorem onlyDisplay_of_eq {s t : State} {ws : List Reg} (hv : SameRegsBut ws s t)
    (h : t = { s with v := t.v, fb := t.fb }) : OnlyDisplay ws s t := by
  refine ⟨hv, fun a _ => ?mem, ?_, ?_, ⟨?_, ?_⟩, ⟨?_, ?_⟩, ?_, ?_, ?_⟩ <;> rw [h]
  case mem => exact State.peek_congr rfl rfl a

/-- Settles O28: the framebuffer written is the clear one, and nothing else is written. -/
theorem clearUnlightsEveryCell : Obligations.ClearUnlightsEveryCell :=
  ⟨decodesAs_cls, fun _ => ⟨_, rfl, Framebuffer.get_clear, onlyDisplay_of_eq (fun _ _ => rfl) rfl⟩⟩

/-! ### Parts of a draw (44 R193) -/

/-- From `d` to `e` exactly the cells `p` are inverted, and a collision is remembered when one of them was lit. The pairs
are those of `drawPixel`. -/
def Inverts (p : Col → Row → Prop) (d e : Framebuffer × Bool) : Prop :=
  (∀ px py, Framebuffer.get e.1 px py = true ↔ ¬(Framebuffer.get d.1 px py = true ↔ p px py)) ∧
  (e.2 = true ↔ d.2 = true ∨ ∃ px py, p px py ∧ Framebuffer.get d.1 px py = true)

theorem Inverts.congr {p q : Col → Row → Prop} {d e : Framebuffer × Bool} (h : Inverts p d e)
    (hpq : ∀ px py, p px py ↔ q px py) : Inverts q d e := by
  rwa [show q = p from funext₂ fun px py => propext (hpq px py).symm]

/-- What does nothing inverts no cell. -/
theorem Inverts.refl_of_not {p : Col → Row → Prop} (hp : ∀ px py, ¬p px py) (d : Framebuffer × Bool) :
    Inverts p d d := by
  simp [Inverts, hp]

/-- Parts that share no cell compose: the second finds its cells as they were before the first. -/
theorem Inverts.comp {p q : Col → Row → Prop} {d e f : Framebuffer × Bool} (hp : Inverts p d e) (hq : Inverts q e f)
    (hdisj : ∀ px py, p px py → ¬q px py) : Inverts (fun px py => p px py ∨ q px py) d f := by
  obtain ⟨hcell, hhit⟩ := hp
  obtain ⟨hcell', hhit'⟩ := hq
  have hfound : ∀ px py, q px py ∧ Framebuffer.get e.1 px py = true ↔ q px py ∧ Framebuffer.get d.1 px py = true := by
    intro px py
    have := hdisj px py
    have := hcell px py
    tauto
  refine ⟨fun px py => ?cells, ?collision⟩
  case cells =>
    have := hdisj px py
    rw [hcell', hcell]
    tauto
  case collision => simp only [hhit', hhit, hfound, or_and_right, exists_or, or_assoc]

/-- A loop whose turns share no cell inverts the cells of its turns. -/
theorem Inverts.foldl_range {f : Framebuffer × Bool → Nat → Framebuffer × Bool} {n : Nat}
    (p : Nat → Col → Row → Prop) (hturn : ∀ d, ∀ k < n, Inverts (p k) d (f d k))
    (hdisj : ∀ j < n, ∀ k < n, ∀ px py, p j px py → p k px py → j = k) (d : Framebuffer × Bool) :
    Inverts (fun px py => ∃ k < n, p k px py) d ((List.range n).foldl f d) := by
  induction n with
  | zero => exact Inverts.refl_of_not (by simp) d
  | succ n ih =>
    have hbefore : Inverts (fun px py => ∃ k < n, p k px py) d ((List.range n).foldl f d) :=
      ih (fun d k hk => hturn d k (hk.trans n.lt_succ_self))
        fun j hj k hk => hdisj j (hj.trans n.lt_succ_self) k (hk.trans n.lt_succ_self)
    have hnew : ∀ px py, (∃ k < n, p k px py) → ¬p n px py := by
      rintro px py ⟨k, hk, hpk⟩ hpn
      exact hk.ne (hdisj k (hk.trans n.lt_succ_self) n n.lt_succ_self px py hpk hpn)
    rw [List.range_succ, List.foldl_append]
    refine (hbefore.comp (hturn _ n n.lt_succ_self) hnew).congr fun px py => ?_
    rw [Nat.exists_lt_succ_right]

/-! ### The cells of a sprite (44 R191, R194) -/

@[simp] theorem colOf_val (m : Nat) : (colOf m).val = m % 64 := rfl

@[simp] theorem rowOf_val (m : Nat) : (rowOf m).val = m % 32 := rfl

theorem eq_colOf_iff (px : Col) (m : Nat) : px = colOf m ↔ m % 64 = px.val := by
  rw [Fin.ext_iff, eq_comm, colOf_val]

theorem eq_rowOf_iff (py : Row) (m : Nat) : py = rowOf m ↔ m % 32 = py.val := by
  rw [Fin.ext_iff, eq_comm, rowOf_val]

/-- Bit `c` of a sprite row, counted from its left edge at column `x0`, is set and falls on the cell. -/
def BitSets (bits : Byte) (x0 : Col) (y0 : Row) (c : Nat) (px : Col) (py : Row) : Prop :=
  spriteBit bits c = true ∧ px = colOf (x0.val + c) ∧ py = y0

/-- Row `r` of the sprite at `I` with its corner at `x0` and `y0` lies in memory and sets the cell. -/
def RowSets (s : State) (x0 : Col) (y0 : Row) (r : Nat) (px : Col) (py : Row) : Prop :=
  s.index.toNat + r < memSize ∧ ∃ c < 8, BitSets (s.peek (s.index.toNat + r)) x0 (rowOf (y0.val + r)) c px py

theorem spriteSets_iff (s : State) (x y : Reg) (n : Nat) (px : Col) (py : Row) :
    SpriteSets s x y n px py ↔
      ∃ r < n, RowSets s (colOf (s.readV x).toNat) (rowOf (s.readV y).toNat) r px py := by
  simp only [SpriteSets, RowSets, BitSets, eq_colOf_iff, eq_rowOf_iff, colOf_val, rowOf_val, spriteBit]
  constructor
  · rintro ⟨r, c, hr, hc, hmem, hcol, hrow, hbit⟩
    exact ⟨r, hr, hmem, c, hc, hbit, hcol, hrow⟩
  · rintro ⟨r, hr, hmem, c, hc, hbit, hcol, hrow⟩
    exact ⟨r, c, hr, hc, hmem, hcol, hrow, hbit⟩

/-- The cells depend on memory, `I` and the place, and on nothing else. -/
theorem spriteSets_congr {s u : State} {x y : Reg} (hmem : u.mem = s.mem) (hcfg : u.config = s.config)
    (hindex : u.index = s.index) (hx : (u.readV x).toNat % 64 = (s.readV x).toNat % 64)
    (hy : (u.readV y).toNat % 32 = (s.readV y).toNat % 32) (n : Nat) (px : Col) (py : Row) :
    SpriteSets u x y n px py ↔ SpriteSets s x y n px py := by
  simp only [SpriteSets, hindex, hx, hy, State.peek_congr hmem hcfg]

/-- The bits of a row fall in different columns. -/
theorem BitSets.bit_unique {bits : Byte} {x0 px : Col} {y0 py : Row} {j k : Nat} (hj : j < 8) (hk : k < 8)
    (hsj : BitSets bits x0 y0 j px py) (hsk : BitSets bits x0 y0 k px py) : j = k := by
  obtain ⟨-, hcolj, -⟩ := hsj
  obtain ⟨-, hcolk, -⟩ := hsk
  rw [eq_colOf_iff] at hcolj hcolk
  omega

/-- The rows of a sprite fall in different rows of the framebuffer. -/
theorem RowSets.row_unique {s : State} {x0 px : Col} {y0 py : Row} {j k : Nat} (hj : j < 32) (hk : k < 32)
    (hsj : RowSets s x0 y0 j px py) (hsk : RowSets s x0 y0 k px py) : j = k := by
  obtain ⟨-, -, -, -, -, hrowj⟩ := hsj
  obtain ⟨-, -, -, -, -, hrowk⟩ := hsk
  rw [eq_rowOf_iff] at hrowj hrowk
  omega

/-! ### The draw, from a pixel to the sprite (44 R192) -/

theorem drawPixel_inverts (px : Col) (py : Row) (d : Framebuffer × Bool) :
    Inverts (fun px' py' => px' = px ∧ py' = py) d (drawPixel px py d) := by
  refine ⟨fun px' py' => ?cells, ?collision⟩
  case cells => rw [(drawPixel_spec px px' py py' d).1, bne_iff_ne, ne_eq, Bool.eq_iff_iff, decide_eq_true_iff]
  case collision => simp [(drawPixel_spec px px py py d).2, and_assoc]

theorem drawRow_inverts (bits : Byte) (x0 : Col) (y0 : Row) (d : Framebuffer × Bool) :
    Inverts (fun px py => ∃ c < 8, BitSets bits x0 y0 c px py) d (drawRow bits x0 y0 d) := by
  refine Inverts.foldl_range (BitSets bits x0 y0) (fun e c _ => ?turn) (fun j hj k hk px py => BitSets.bit_unique hj hk) d
  case turn =>
    split
    case isTrue hset => exact (drawPixel_inverts _ _ e).congr fun px py => by simp [BitSets, hset]
    case isFalse hclear => exact Inverts.refl_of_not (fun px py h => hclear h.1) e

theorem State.spriteRow_of_lt {s : State} {r : Nat} (h : s.index.toNat + r < memSize) :
    s.spriteRow r = some (s.peek (s.index.toNat + r)) :=
  if_pos h

theorem State.spriteRow_of_past {s : State} {r : Nat} (h : memSize ≤ s.index.toNat + r) : s.spriteRow r = none :=
  if_neg h.not_gt

/-- A sprite of at most 32 rows inverts its cells and starts without a collision. -/
theorem State.drawSprite_inverts (s : State) (x0 : Col) (y0 : Row) {n : Nat} (hn : n ≤ 32) :
    Inverts (fun px py => ∃ r < n, RowSets s x0 y0 r px py) (s.fb, false) (s.drawSprite x0 y0 n) := by
  refine Inverts.foldl_range (RowSets s x0 y0) (fun d r _ => ?turn)
    (fun j hj k hk px py => RowSets.row_unique (hj.trans_le hn) (hk.trans_le hn)) _
  case turn =>
    by_cases hmem : s.index.toNat + r < memSize
    · rw [s.spriteRow_of_lt hmem]
      exact (drawRow_inverts _ x0 _ d).congr fun px py => by simp [RowSets, hmem]
    · rw [s.spriteRow_of_past (not_lt.mp hmem)]
      exact Inverts.refl_of_not (fun px py h => hmem h.1) d

theorem flagByte_eq_one_iff (c : Bool) : flagByte c = 1 ↔ c = true := by
  cases c <;> decide

theorem flagByte_eq_zero_iff (c : Bool) : flagByte c = 0 ↔ ¬c = true := by
  cases c <;> decide

/-- VF is the one register of Dxyn. -/
theorem onlyDisplay_writeV_fb (s : State) (fb : Framebuffer) (b : Byte) :
    OnlyDisplay [15] s ({ s with fb := fb }.writeV Reg.vf b) :=
  onlyDisplay_of_eq (sameRegsBut_writeV s 15 b) rfl

/-- Dxyn inverts the cells of its sprite, sets VF by whether one of them was lit, and leaves everything else. -/
theorem exec_drw_inverts (x y : Reg) {n : Nat} (s : State) (hn : n ≤ 32) :
    ∃ t, exec (.drw x y n) s = .next t ∧
      (∀ px py, t.cell px py = true ↔ ¬(s.cell px py = true ↔ SpriteSets s x y n px py)) ∧
      (t.readV 15 = 1 ↔ ∃ px py, SpriteSets s x y n px py ∧ s.cell px py = true) ∧
      (t.readV 15 = 0 ↔ ¬∃ px py, SpriteSets s x y n px py ∧ s.cell px py = true) ∧
      OnlyDisplay [15] s t := by
  obtain ⟨hcell, hhit⟩ := (s.drawSprite_inverts (colOf (s.readV x).toNat) (rowOf (s.readV y).toNat) hn).congr
    fun px py => (spriteSets_iff s x y n px py).symm
  simp only [Bool.false_eq_true, false_or] at hhit
  refine ⟨_, rfl, hcell, ?one, ?zero, onlyDisplay_writeV_fb s _ _⟩
  case one => rw [State.readV_writeV_self, flagByte_eq_one_iff]; exact hhit
  case zero => rw [State.readV_writeV_self, flagByte_eq_zero_iff]; exact not_congr hhit

/-- Settles O29: a sprite of at most 15 rows meets no cell twice, so each bit finds its cell as it was before the draw. -/
theorem drawXorsTheSprite : Obligations.DrawXorsTheSprite := by
  refine ⟨decodesAs_drw, fun x y n s hn => ?_⟩
  obtain ⟨t, hexec, hcell, hone, hzero, hframe⟩ := exec_drw_inverts x y s (show n ≤ 32 by omega)
  exact ⟨t, hexec, hcell, hone.mpr, hzero.mpr, hframe⟩

/-- Settles O30: both draws invert the same cells, and the second finds one of them lit where the first found it unlit. -/
theorem drawTwiceRestores : Obligations.DrawTwiceRestores := by
  intro x y n s t u w hn hfirst hfb hmem hcfg hindex hx hy hsecond
  have hn : n ≤ 32 := by omega
  obtain ⟨_, hexec, hcell, -⟩ := exec_drw_inverts x y s hn
  obtain rfl := Host.Outcome.next.inj (hexec.symm.trans hfirst)
  obtain ⟨_, hexec', hcell', hone, -⟩ := exec_drw_inverts x y u hn
  obtain rfl := Host.Outcome.next.inj (hexec'.symm.trans hsecond)
  have hsame := spriteSets_congr hmem hcfg hindex hx hy n
  have hfound : ∀ px py, u.cell px py = true ↔ ¬(s.cell px py = true ↔ SpriteSets s x y n px py) := by
    intro px py
    rw [State.cell, hfb]
    exact hcell px py
  refine ⟨fun px py => ?restored, ?collision⟩
  case restored =>
    rw [Bool.eq_iff_iff, hcell', hfound, hsame]
    tauto
  case collision =>
    rw [hone]
    refine exists₂_congr fun px py => ?_
    rw [hfound, hsame, ← Bool.not_eq_true]
    tauto

/-! ### Rows past memory, and no rows (44 R195, R196) -/

theorem State.drawSprite_succ_of_past {s : State} {n : Nat} (x0 : Col) (y0 : Row) (h : memSize ≤ s.index.toNat + n) :
    s.drawSprite x0 y0 (n + 1) = s.drawSprite x0 y0 n := by
  simp only [State.drawSprite, List.range_succ, List.foldl_append, List.foldl_cons, List.foldl_nil,
    s.spriteRow_of_past h]

/-- The draw is that of its rows inside memory. -/
theorem State.drawSprite_min (s : State) (x0 : Col) (y0 : Row) (n : Nat) :
    s.drawSprite x0 y0 (min n (4096 - s.index.toNat)) = s.drawSprite x0 y0 n := by
  induction n with
  | zero => rw [Nat.zero_min]
  | succ n ih =>
    by_cases hmem : s.index.toNat + n < 4096
    · rw [Nat.min_eq_left (by omega)]
    · rw [State.drawSprite_succ_of_past x0 y0 (not_lt.mp hmem), ← ih, Nat.min_eq_right (by omega),
        Nat.min_eq_right (by omega)]

/-- Settles O31: Dxyn looks at its row count only through `State.drawSprite`, and never at the policy. -/
theorem rowsPastMemoryDrawNothing : Obligations.RowsPastMemoryDrawNothing := by
  refine fun x y n s => ⟨_, rfl, rfl, ?_⟩
  simp only [exec, execDrw, State.drawSprite_min]

/-- Settles O32: the draw of no rows is the framebuffer as it was, without a collision. -/
theorem drawOfNoRows : Obligations.DrawOfNoRows :=
  fun _ _ s => ⟨_, rfl, State.readV_writeV_self _ _ _, rfl, onlyDisplay_writeV_fb s s.fb 0⟩

end Sys2Proof.Machine

/-! PROOFS of the family 45_keypad_timers: the skips on a key, the wait for a key, and the moves of the timers. A step of
the wait without a key goes back to its own address, so it leaves the state as it is (`step_keyWait_of_none_pressed`), and
so does a run of any length (`runEvents_replicate_append`); a key that the host then sets is the only one pressed, and the
next step takes it. -/

namespace Sys2Proof.Machine

/-! ### The skips on a key (45 R210, R211, R213) -/

theorem State.skipOnKey_of_key {s : State} {x : Reg} {k : Key} (want : Bool) (h : (s.readV x).toNat = k.val) :
    s.skipOnKey x want = .next (s.skipIf (s.pressed k == want)) := by
  simp only [State.skipOnKey, (keyOperand_eq_some (s.readV x) k).mpr h]

theorem State.skipOnKey_raises {s : State} {x : Reg} (want : Bool) (h : 16 ≤ (s.readV x).toNat) :
    s.skipOnKey x want = .next (raisedAt s (.keyIndexOutOfRange (s.pc - 2) (s.readV x))) := by
  simp only [State.skipOnKey, (keyOperand_eq_none (s.readV x)).mpr h, State.raise_eq, State.instrAddr_eq]

theorem State.skipIf_beq_false_pc (s : State) (c : Bool) :
    (s.skipIf (c == false)).pc = if c = true then s.pc else s.pc + 2 := by
  cases c <;> rfl

/-- Settles O33: both forms are one skip on the key that Vx names, and Vx names none exactly from 16 up. -/
theorem keySkips : Obligations.KeySkips := by
  refine ⟨decodesAs_skp, decodesAs_sknp, fun x s => ⟨fun k hk => ⟨?skp, ?sknp⟩, fun h =>
    ⟨State.skipOnKey_raises true h, State.skipOnKey_raises false h⟩⟩⟩
  case skp => exact ⟨_, State.skipOnKey_of_key true hk, s.skipIf_beq_pc (s.pressed k) true, onlyRegs_skipIf s _⟩
  case sknp => exact ⟨_, State.skipOnKey_of_key false hk, s.skipIf_beq_false_pc (s.pressed k), onlyRegs_skipIf s _⟩

/-! ### The wait for a key (45 R214) -/

theorem exec_ldVxK_of_lowest {s : State} {k : Key} (x : Reg) (h : s.lowestPressed = some k) :
    exec (.ldVxK x) s = .next (s.writeV x (BitVec.ofNat 8 k.val)) := by
  simp only [exec, execLdVxK, h]

theorem exec_ldVxK_of_none_pressed {s : State} (x : Reg) (h : ∀ k, s.pressed k = false) :
    exec (.ldVxK x) s = .next s.rewind := by
  simp only [exec, execLdVxK, s.lowestPressed_eq_none.mpr h]

/-- The number of a key fits the register that takes it. -/
theorem readV_writeV_key_toNat (s : State) (x : Reg) (k : Key) :
    ((s.writeV x (BitVec.ofNat 8 k.val)).readV x).toNat = k.val := by
  rw [State.readV_writeV_self, BitVec.toNat_ofNat]
  omega

/-- Settles O34: the scan finds the lowest pressed key, or none exactly when no key is pressed. -/
theorem keyWaitTakesLowestKey : Obligations.KeyWaitTakesLowestKey := by
  refine ⟨decodesAs_ldVxK, fun x s => ⟨fun k hk hbelow => ?taken, fun hnone => ?waits⟩⟩
  case taken =>
    exact ⟨_, exec_ldVxK_of_lowest x ((s.lowestPressed_eq_some k).mpr ⟨hk, hbelow⟩), readV_writeV_key_toNat s x k,
      s.writeV_pc x _, onlyRegs_writeV s x _⟩
  case waits => exact ⟨_, exec_ldVxK_of_none_pressed x hnone, s.rewind_pc, onlyRegs_rewind s⟩

/-! ### Runs of a repeated event (60 R318) -/

theorem runEvents_cons_of_next {e : Event} {s t : State} (h : e.apply s = .next t) (rest : List Event) :
    runEvents (e :: rest) s = runEvents rest t := by
  simp only [runEvents, h]

/-- An event that leaves the state as it is may come any number of times before the rest of a schedule. -/
theorem runEvents_replicate_append {e : Event} {s : State} (h : e.apply s = .next s) (n : Nat) (rest : List Event) :
    runEvents (List.replicate n e ++ rest) s = runEvents rest s := by
  induction n with
  | zero => rfl
  | succ n ih => rw [List.replicate_succ, List.cons_append, runEvents_cons_of_next h, ih]

/-! ### A key set by the host (60 R313) -/

theorem State.setKey_of_key (s : State) (k : Key) (b : Bool) :
    s.setKey k.val b = { s with keys := s.keys.set k b } :=
  dif_pos k.isLt

/-- What a key reads after the host set one, the same key or another. -/
theorem State.pressed_setKey (s : State) (k j : Key) (b : Bool) :
    (s.setKey k.val b).pressed j = if j = k then b else s.pressed j := by
  simp only [State.setKey_of_key, State.pressed, Fin.getElem_fin, Vector.getElem_set, Fin.ext_iff, eq_comm]

/-- A key pressed when no other is pressed is the one that the scan finds. -/
theorem State.lowestPressed_setKey {s : State} (hnone : ∀ j, s.pressed j = false) (k : Key) :
    (s.setKey k.val true).lowestPressed = some k := by
  refine (State.lowestPressed_eq_some _ k).mpr ⟨?pressed, fun j hj => ?below⟩
  case pressed => rw [State.pressed_setKey, if_pos rfl]
  case below => rw [State.pressed_setKey, if_neg hj.ne, hnone j]

theorem hostOp_of_running {s : State} (h : s.fault = none) (op : HostOp) : hostOp op s = .next (op.effect s) := by
  simp only [hostOp, h]

/-! ### The wait over a run (45 R215) -/

section
variable {x : Reg} {s : State} (hs : s.fault = none) (hf : s.fetchFault = none)
  (hd : decode s.fetchBytes = .instr (.ldVxK x) []) (hnone : ∀ j, s.pressed j = false)
include hs hf hd hnone

/-- The rewind undoes the advance of the fetch, so the step is a fixed point. -/
theorem step_keyWait_of_none_pressed : step s = .next s := by
  have hexec : exec (.ldVxK x) s.advance = .next s.advance.rewind := exec_ldVxK_of_none_pressed x hnone
  rw [step_of_instr hs hf hd, hexec, State.rewind_advance]

/-- Setting a key leaves what the fetch reads, so the next step is the same wait, and it finds the key. -/
theorem step_keyWait_setKey (k : Key) :
    step (s.setKey k.val true) = .next ((s.setKey k.val true).advance.writeV x (BitVec.ofNat 8 k.val)) := by
  have hlowest : (s.setKey k.val true).advance.lowestPressed = some k := State.lowestPressed_setKey hnone k
  rw [← exec_ldVxK_of_lowest x hlowest, State.setKey_of_key]
  exact step_of_instr hs hf hd

end

/-- Settles O35: the waiting step is a fixed point, and the key that ends the wait is the only one pressed. -/
theorem keyWaitSpinsUntilPressed : Obligations.KeyWaitSpinsUntilPressed := by
  intro x s n k hs hf hd hnone
  have hwait : Event.step.apply s = .next s := step_keyWait_of_none_pressed hs hf hd hnone
  have hpress : (Event.host (.setKey k.val true)).apply s = .next (s.setKey k.val true) := hostOp_of_running hs _
  have htake := step_keyWait_setKey hs hf hd hnone k
  have hrun : runEvents (List.replicate n .step ++ [.host (.setKey k.val true), .step]) s =
      .next ((s.setKey k.val true).advance.writeV x (BitVec.ofNat 8 k.val)) := by
    rw [runEvents_replicate_append hwait, runEvents_cons_of_next hpress, runEvents_cons_of_next (e := .step) htake,
      runEvents]
  refine ⟨?spins, _, hrun, readV_writeV_key_toNat _ x k, ?pc, ?running⟩
  case spins => simpa only [List.append_nil, runEvents] using runEvents_replicate_append hwait n []
  case pc => rw [State.setKey_of_key]; rfl
  case running => rw [State.setKey_of_key]; exact hs

/-! ### The timers (45 R212, R216, R217) -/

/-- A state that differs in the timers alone is framed by them. -/
theorem onlyTimers_of_eq {s t : State} (h : t = { s with dt := t.dt, st := t.st }) : OnlyTimers s t := by
  rw [h]
  exact ⟨fun _ _ => rfl, fun _ _ => rfl, rfl, rfl, ⟨rfl, rfl⟩, rfl, rfl, rfl, rfl⟩

/-- The sound signal is on exactly while ST is not 0 (60 R316). -/
theorem State.soundOn_iff (s : State) : s.soundOn = true ↔ s.st.toNat ≠ 0 :=
  bne_iff_ne.trans (not_congr BitVec.toNat_eq)

/-- Settles O36: Fx07 is one write of Vx, Fx15 and Fx18 write one timer each, and the sound signal looks at ST alone. -/
theorem timerRegisterMoves : Obligations.TimerRegisterMoves :=
  ⟨decodesAs_ldVxDt, decodesAs_ldDtVx, decodesAs_ldStVx, fun x s =>
    ⟨s.writeV_writes x s.dt, ⟨_, rfl, rfl, rfl, onlyTimers_of_eq rfl⟩,
      ⟨_, rfl, rfl, rfl, onlyTimers_of_eq rfl, State.soundOn_iff _⟩⟩⟩

end Sys2Proof.Machine

/-! PROOFS of the family 60_exceptions: what each host operation and each fault does. Two facts carry the faults.
`exec_completes_or_raises` says once that an instruction leaves FAULT as it was, or raises a fault for a cause of Table 13
(`Table13`) and changes nothing else. `Event.apply_of_faulted` says that a stopped machine answers its fault to every
event, so a run that goes on past a state found it with FAULT = none. -/

namespace Sys2Proof.Machine

/-! ### The host operations and the outputs (60 R310, R313, R315, R316) -/

/-- Settles O37: each timer counts down by `tickDown`, and nothing else is written. -/
theorem tickCountsBothTimersDown : Obligations.TickCountsBothTimersDown :=
  fun s hs => ⟨s.tickTimers, hostOp_of_running hs _, tickDown_toNat s.dt, tickDown_toNat s.st, rfl⟩

theorem State.setKey_of_lt (s : State) {index : Nat} (h : index < 16) (b : Bool) :
    s.setKey index b = { s with keys := s.keys.set index b } :=
  dif_pos h

theorem State.setKey_of_ge (s : State) {index : Nat} (h : 16 ≤ index) (b : Bool) : s.setKey index b = s :=
  dif_neg (not_lt.mpr h)

/-- Settles O38: the operation is one write to the keypad, or none where the index names no key. -/
theorem setKeySetsOneKey : Obligations.SetKeySetsOneKey := by
  intro s index b hs
  have hrun : hostOp (.setKey index b) s = .next (s.setKey index b) := hostOp_of_running hs _
  refine ⟨fun hlt => ?inside, fun hge => ?outside⟩
  case inside =>
    rw [State.setKey_of_lt s hlt] at hrun
    exact ⟨_, hrun, Vector.getElem?_set_self hlt, fun k hk => Vector.getElem?_set_ne hlt hk.symm, rfl⟩
  case outside => rw [hrun, State.setKey_of_ge s hge]

/-- Settles O43: the sound signal looks at ST alone, and the framebuffer read is the component FB. -/
theorem outputsFollowState : Obligations.OutputsFollowState :=
  fun s => ⟨s.soundOn_iff, fun _ _ => rfl⟩

/-! ### A stopped machine (60 R303) -/

theorem step_of_faulted {s : State} {f : Fault} (h : s.fault = some f) : step s = .fault f := by
  simp only [step, h]

theorem hostOp_of_faulted {s : State} {f : Fault} (h : s.fault = some f) (op : HostOp) : hostOp op s = .fault f := by
  simp only [hostOp, h]

theorem Event.apply_of_faulted {s : State} {f : Fault} (h : s.fault = some f) (e : Event) : e.apply s = .fault f := by
  cases e with
  | step => exact step_of_faulted h
  | host op => exact hostOp_of_faulted h op

/-- Settles O44: the step and every host operation look at FAULT first. -/
theorem faultedMachineStops : Obligations.FaultedMachineStops :=
  fun _ _ e h => Event.apply_of_faulted h e

/-- An event that gives a state found FAULT = none. -/
theorem Event.fault_eq_none_of_apply {e : Event} {s t : State} (h : e.apply s = .next t) : s.fault = none := by
  cases hs : s.fault with
  | none => rfl
  | some f => rw [Event.apply_of_faulted hs] at h; cases h

/-- A run of two schedules in turn goes through the state that the first one gives. -/
theorem runEvents_append_next {before after : List Event} {s t : State}
    (h : runEvents (before ++ after) s = .next t) :
    ∃ u, runEvents before s = .next u ∧ runEvents after u = .next t := by
  induction before generalizing s with
  | nil => exact ⟨s, rfl, h⟩
  | cons e before ih =>
    obtain ⟨v, he, hrest⟩ := runEvents_cons_next h
    obtain ⟨u, hbefore, hafter⟩ := ih hrest
    exact ⟨u, (runEvents_cons_of_next he before).trans hbefore, hafter⟩

/-- A run that ends well begins with FAULT = none: it is the end itself, or an event gives a state from it. -/
theorem EndsWell.fault_eq_none {schedule : List Event} {s t : State} (h : EndsWell schedule s t) : s.fault = none := by
  obtain ⟨hrun, ht⟩ := h
  cases schedule with
  | nil => cases hrun; exact ht
  | cons e rest =>
    obtain ⟨u, he, -⟩ := runEvents_cons_next hrun
    exact Event.fault_eq_none_of_apply he

/-- Settles O48: the rest of a run that ends well is a run that ends well, so it begins with FAULT = none. -/
theorem endsWellMeansNoFaultThroughout : Obligations.EndsWellMeansNoFaultThroughout := by
  rintro before after s t ⟨hrun, ht⟩
  obtain ⟨u, hbefore, hafter⟩ := runEvents_append_next hrun
  have hend : EndsWell after u t := ⟨hafter, ht⟩
  exact ⟨u, hbefore, hend.fault_eq_none, hend⟩

/-! ### What an instruction can raise (60 R300 to R302, R304) -/

/-- Table 13 for instructions: the fault that an instruction raises from `s`, and the cause. A fetch fault is none of
these (30 R91). -/
inductive Table13 (s : State) : Instr → Fault → Prop where
  /-- Fx33 past memory -/
  | bcd (x : Reg) (hpolicy : s.config.memOob = .fault) (hpast : 4096 ≤ s.index.toNat + 2) :
      Table13 s (.ldB x) (.memOutOfRange (max s.index.toNat 4096) (s.pc - 2))
  /-- Fx55 past memory -/
  | store (x : Reg) (hpolicy : s.config.memOob = .fault) (hpast : 4096 ≤ s.index.toNat + x.val) :
      Table13 s (.ldMemVx x) (.memOutOfRange (max s.index.toNat 4096) (s.pc - 2))
  /-- Fx65 past memory -/
  | load (x : Reg) (hpolicy : s.config.memOob = .fault) (hpast : 4096 ≤ s.index.toNat + x.val) :
      Table13 s (.ldVxMem x) (.memOutOfRange (max s.index.toNat 4096) (s.pc - 2))
  /-- 2nnn on a full stack -/
  | call (nnn : Addr12) (hfull : s.sp.val = 16) : Table13 s (.call nnn) (.stackOverflow (s.pc - 2))
  /-- 00EE on an empty stack -/
  | ret (hempty : s.sp.val = 0) : Table13 s .ret (.stackUnderflow (s.pc - 2))
  /-- Ex9E or ExA1 where Vx names no key -/
  | key {i : Instr} (x : Reg) (hi : i = .skp x ∨ i = .sknp x) (hkey : 16 ≤ (s.readV x).toNat) :
      Table13 s i (.keyIndexOutOfRange (s.pc - 2) (s.readV x))
  /-- a flag producer with VF as its destination -/
  | flag {i : Instr} (y : Reg)
      (hi : i ∈ [Instr.addReg 15 y, Instr.subReg 15 y, Instr.shr 15 y, Instr.subnReg 15 y, Instr.shl 15 y])
      (hpolicy : s.config.vfDest = .refuse) : Table13 s i (.vfDestRefused (s.pc - 2))

/-- An instruction leaves FAULT as it was, or raises a fault of Table 13 and changes nothing else. -/
theorem exec_completes_or_raises {i : Instr} {s t : State} (h : exec i s = .next t) :
    t.fault = s.fault ∨ ∃ f, Table13 s i f ∧ t = raisedAt s f := by
  have hshape := exec_shape i s t h
  cases i with
  | ret =>
    obtain ⟨hempty, rfl⟩ | ht := hshape
    · exact .inr ⟨_, .ret hempty, rfl⟩
    · exact .inl (by rw [ht])
  | call nnn =>
    obtain ⟨hfull, rfl⟩ | ht := hshape
    · exact .inr ⟨_, .call nnn hfull, rfl⟩
    · exact .inl (by rw [ht])
  | skp x | sknp x =>
    obtain ⟨hkey, rfl⟩ | rfl | rfl := hshape
    · exact .inr ⟨_, .key x (by simp) hkey, rfl⟩
    · exact .inl rfl
    · exact .inl rfl
  | addReg x y | subReg x y | shr x y | subnReg x y | shl x y =>
    obtain ⟨rfl, hpolicy, rfl⟩ | ⟨_, _, rfl⟩ := hshape
    · exact .inr ⟨_, .flag y (by simp) hpolicy, rfl⟩
    · exact .inl rfl
  | ldB x =>
    obtain ⟨hpolicy, hpast, rfl⟩ | ⟨bs, rfl⟩ := hshape
    · exact .inr ⟨_, .bcd x hpolicy (Nat.le_of_lt_succ hpast), rfl⟩
    · exact .inl (s.storeBytes_fault _ bs)
  | ldMemVx x =>
    obtain ⟨hpolicy, hpast, rfl⟩ | ⟨bs, rfl⟩ := hshape
    · exact .inr ⟨_, .store x hpolicy (Nat.le_of_lt_succ hpast), rfl⟩
    · exact .inl (s.storeBytes_fault _ bs)
  | ldVxMem x =>
    obtain ⟨hpolicy, hpast, rfl⟩ | rfl := hshape
    · exact .inr ⟨_, .load x hpolicy (Nat.le_of_lt_succ hpast), rfl⟩
    · obtain ⟨v, hv⟩ := State.loadRegsThrough_eq s x
      exact .inl (by rw [hv])
  | seImm | sneImm | seReg | sneReg => obtain rfl | rfl := hshape <;> exact .inl rfl
  | ldVxK => obtain ⟨_, rfl⟩ | rfl := hshape <;> exact .inl rfl
  | ldImm | addImm | ldReg | orReg | andReg | xorReg | ldVxDt | rnd => obtain ⟨_, rfl⟩ := hshape; exact .inl rfl
  | drw => obtain ⟨_, _, rfl⟩ := hshape; exact .inl rfl
  | cls | jp | jpV0 | ldI | addI | ldF | ldDtVx | ldStVx => exact .inl (by rw [hshape])

/-- Where FAULT was none, the fault in the next state is the one raised. -/
theorem exec_raises {i : Instr} {s t : State} {f : Fault} (hs : s.fault = none) (h : exec i s = .next t)
    (ht : t.fault = some f) : Table13 s i f ∧ t = raisedAt s f := by
  obtain hkept | ⟨g, hcause, rfl⟩ := exec_completes_or_raises h
  · rw [hkept, hs] at ht; cases ht
  · cases ht; exact ⟨hcause, rfl⟩

/-- A fault raised by a step's instruction puts `pc` back to where the step began. -/
theorem raisedAt_advance (s : State) (f : Fault) : raisedAt s.advance f = { s with fault := some f } :=
  congrArg (State.recordFault · f) s.rewind_advance

/-- Settles O45: a step records a fetch fault alone, or raises its instruction's, which puts `pc` back. -/
theorem faultsArePrecise : Obligations.FaultsArePrecise := by
  refine ⟨fun s t f hs h ht => ?step, fun i s t f hs h ht => (exec_raises hs h ht).2⟩
  obtain ⟨g, hg, -⟩ | ⟨-, g, -, hstep⟩ | ⟨-, -, i, rest, -, hstep⟩ | ⟨-, -, w, -, hstep⟩ := step_cases s
  · rw [hs] at hg; cases hg
  · rw [hstep] at h; cases h; cases ht
    rfl
  · rw [hstep] at h
    exact (exec_raises (s := s.advance) hs h ht).2.trans (raisedAt_advance s f)
  · rw [hstep] at h; cases h
    rw [State.advance_fault, hs] at ht; cases ht

/-- Settles O46: the causes are those of `Table13`. -/
theorem onlyTable13Faults : Obligations.OnlyTable13Faults := by
  intro i s t f hs h ht
  cases (exec_raises hs h ht).1 with
  | bcd x hpolicy hpast => exact .inl ⟨x, .inl ⟨rfl, hpast⟩, hpolicy, rfl⟩
  | store x hpolicy hpast => exact .inl ⟨x, .inr ⟨.inl rfl, hpast⟩, hpolicy, rfl⟩
  | load x hpolicy hpast => exact .inl ⟨x, .inr ⟨.inr rfl, hpast⟩, hpolicy, rfl⟩
  | call nnn hfull => exact .inr (.inl ⟨nnn, rfl, hfull, rfl⟩)
  | ret hempty => exact .inr (.inr (.inl ⟨rfl, hempty, rfl⟩))
  | key x hi hkey => exact .inr (.inr (.inr (.inl ⟨x, hi, hkey, rfl⟩)))
  | flag y hi hpolicy => exact .inr (.inr (.inr (.inr ⟨y, hi, hpolicy, rfl⟩)))

/-! ### The timers under every event (60 R311) -/

theorem State.setKey_timers (s : State) (index : Nat) (b : Bool) : SameTimers s (s.setKey index b) := by
  unfold State.setKey; split <;> exact ⟨rfl, rfl⟩

theorem State.loadImage_timers (s : State) (bs : List Byte) : SameTimers s (s.loadImage bs) := by
  unfold State.loadImage
  split
  · exact ⟨s.pokeBytes_dt _ bs, s.pokeBytes_st _ bs⟩
  · exact ⟨rfl, rfl⟩

/-- No host operation raises a timer: a tick counts down, a reset clears, and the others leave the timers. -/
theorem HostOp.effect_timers_le (op : HostOp) (s : State) :
    (op.effect s).dt.toNat ≤ s.dt.toNat ∧ (op.effect s).st.toNat ≤ s.st.toNat := by
  cases op with
  | tickTimers =>
    exact ⟨(tickDown_toNat s.dt).trans_le (Nat.sub_le _ 1), (tickDown_toNat s.st).trans_le (Nat.sub_le _ 1)⟩
  | setKey index b =>
    obtain ⟨hdt, hst⟩ := s.setKey_timers index b
    exact ⟨(congrArg BitVec.toNat hdt).le, (congrArg BitVec.toNat hst).le⟩
  | load bs =>
    obtain ⟨hdt, hst⟩ := s.loadImage_timers bs
    exact ⟨(congrArg BitVec.toNat hdt).le, (congrArg BitVec.toNat hst).le⟩
  | reset => exact ⟨Nat.zero_le _, Nat.zero_le _⟩

/-- A step changes a timer only where the instruction it fetched sets that timer (10 R44). -/
theorem step_timer_writers {s t : State} (h : step s = .next t) :
    (t.dt ≠ s.dt → ∃ x, decode s.fetchBytes = .instr (.ldDtVx x) []) ∧
    (t.st ≠ s.st → ∃ x, decode s.fetchBytes = .instr (.ldStVx x) []) := by
  obtain ⟨f, -, hs⟩ | ⟨-, f, -, hs⟩ | ⟨-, -, i, rest, hd, hs⟩ | ⟨-, -, w, -, hs⟩ := step_cases s <;> rw [hs] at h
  · cases h
  · cases h; exact ⟨absurd rfl, absurd rfl⟩
  · obtain rfl := State.eq_nil_of_decode_fetchBytes hd
    obtain ⟨-, hdt, hst, -, -⟩ := deviceWriters i s.advance t h
    refine ⟨fun hne => ?dt, fun hne => ?st⟩
    case dt =>
      obtain ⟨x, rfl⟩ := hdt hne
      exact ⟨x, hd⟩
    case st =>
      obtain ⟨x, rfl⟩ := hst hne
      exact ⟨x, hd⟩
  · cases h; exact ⟨absurd rfl, absurd rfl⟩

theorem ne_of_toNat_lt {a b : Byte} (h : a.toNat < b.toNat) : b ≠ a :=
  fun heq => h.ne' (congrArg BitVec.toNat heq)

/-- Settles O54: a host operation raises no timer, and a step changes one only by its setting instruction. -/
theorem timersRiseOnlyWhenSet : Obligations.TimersRiseOnlyWhenSet := by
  intro e s t h
  cases e with
  | step =>
    obtain ⟨hdt, hst⟩ := step_timer_writers h
    exact ⟨fun hrise => ⟨rfl, hdt (ne_of_toNat_lt hrise)⟩, fun hrise => ⟨rfl, hst (ne_of_toNat_lt hrise)⟩⟩
  | host op =>
    obtain rfl := hostOp_next h
    obtain ⟨hdt, hst⟩ := op.effect_timers_le s
    exact ⟨fun hrise => absurd hdt hrise.not_ge, fun hrise => absurd hst hrise.not_ge⟩

end Sys2Proof.Machine

/-! PROOFS of the family 70_reset_and_hazards: the power-on state, the load of an image, and the end of a run. A power-on
state lists no byte, so each address reads as `powerOnByte`; `reset` gives that state. A loaded image is read off
`State.peek_pokeBytes`, and the first fetch after the load is one such read under either policy, since both its addresses
are below 4096. A jump to its own address undoes the advance of the fetch, so a run of such steps is one of a fixed point. -/

namespace Sys2Proof.Machine

/-! ### The power-on state (70 R400, Table 15) -/

theorem powerOnByte_of_lt (font : Fontset) (a : Fin 80) : powerOnByte font a.val = font[a.val] :=
  dif_pos a.isLt

theorem powerOnByte_of_ge (font : Fontset) {a : Nat} (h : 80 ≤ a) : powerOnByte font a = 0 :=
  dif_neg h.not_gt

section
variable (config : Config) (draws : Nat)

theorem State.powerOn_peek_font (a : Fin 80) : (State.powerOn config draws).peek a.val = config.fontset[a.val] :=
  powerOnByte_of_lt config.fontset a

theorem State.powerOn_peek_of_ge (a : Nat) (h : 80 ≤ a) : (State.powerOn config draws).peek a = 0 :=
  powerOnByte_of_ge config.fontset h

theorem State.powerOn_readV (r : Reg) : (State.powerOn config draws).readV r = 0 :=
  Vector.getElem_replicate r.isLt

theorem State.powerOn_stack_getElem (k : Fin 16) : (State.powerOn config draws).stack[k.val] = 0 :=
  Vector.getElem_replicate k.isLt

theorem State.powerOn_cell (px : Col) (py : Row) : (State.powerOn config draws).cell px py = false :=
  Framebuffer.get_clear px py

theorem State.powerOn_pressed (k : Key) : (State.powerOn config draws).pressed k = false :=
  Vector.getElem_replicate k.isLt

end

/-- With FAULT none the host's reset gives the power-on state of the same parameters (70 R401). -/
theorem hostOp_reset {s : State} (hs : s.fault = none) :
    hostOp .reset s = .next (State.powerOn s.config s.draws) :=
  hostOp_of_running hs _

/-- Settles O40: no byte is listed, so memory is the fontset and zeros, and every other component is written out. -/
theorem powerOnState : Obligations.PowerOnState := by
  refine ⟨rfl, fun s hs => hostOp_reset hs, ?_⟩
  rintro config draws _ rfl
  exact ⟨State.powerOn_peek_font config draws, State.powerOn_peek_of_ge config draws, State.powerOn_readV config draws,
    rfl, rfl, State.powerOn_stack_getElem config draws, rfl, rfl, rfl, State.powerOn_cell config draws,
    State.powerOn_pressed config draws, rfl⟩

/-- Settles O41: the state that reset gives is a power-on state, so its components are those of O40. -/
theorem resetGivesPowerOnState : Obligations.ResetGivesPowerOnState := by
  intro s hs
  obtain ⟨-, hreset, hvalues⟩ := powerOnState
  obtain ⟨hfont, hzero, hv, hindex, hpc, hstack, hsp, hdt, hst, hfb, hkeys, hfault⟩ :=
    hvalues s.config s.draws _ rfl
  exact ⟨_, hreset s hs, rfl, hfont, hzero, hv, hindex, hpc, hstack, hsp, hdt, hst, hfb, hkeys, hfault, rfl⟩

/-- Settles O57: the reset state is a power-on state, which lists no byte. -/
theorem resetMeetsInvariant : Obligations.ResetMeetsInvariant :=
  ⟨State.powerOn_inv defaultConfig 0, rfl⟩

/-! ### The load of an image (70 R407) -/

theorem State.loadImage_of_fits (s : State) {bytes : List Byte} (h : 0x200 + bytes.length ≤ 4096) :
    s.loadImage bytes = s.pokeBytes 0x200 bytes :=
  if_pos h

theorem State.loadImage_of_too_long (s : State) {bytes : List Byte} (h : 4096 < 0x200 + bytes.length) :
    s.loadImage bytes = s :=
  if_neg h.not_ge

section
variable {s : State} {bytes : List Byte} (hinv : s.Inv) (hfit : 0x200 + bytes.length ≤ 4096)
include hinv hfit

theorem State.peek_loadImage_inside {k : Nat} (hk : k < bytes.length) :
    (s.loadImage bytes).peek (0x200 + k) = bytes[k] := by
  rw [s.loadImage_of_fits hfit, State.peek_pokeBytes s 0x200 bytes hinv hfit, dif_pos (by omega)]
  simp only [Nat.add_sub_cancel_left]

theorem State.peek_loadImage_outside {a : Nat} (ha : a < 0x200 ∨ 0x200 + bytes.length ≤ a) :
    (s.loadImage bytes).peek a = s.peek a := by
  rw [s.loadImage_of_fits hfit, State.peek_pokeBytes s 0x200 bytes hinv hfit, dif_neg (by omega)]

end

/-- A load changes memory alone. -/
theorem State.loadImage_eq (s : State) (bytes : List Byte) : ∃ m, s.loadImage bytes = { s with mem := m } := by
  unfold State.loadImage
  split
  · exact s.pokeBytes_eq _ bytes
  · exact ⟨s.mem, rfl⟩

@[simp] theorem State.loadImage_pc (s : State) (bytes : List Byte) : (s.loadImage bytes).pc = s.pc := by
  obtain ⟨m, hm⟩ := s.loadImage_eq bytes
  rw [hm]

@[simp] theorem State.loadImage_fault (s : State) (bytes : List Byte) : (s.loadImage bytes).fault = s.fault := by
  obtain ⟨m, hm⟩ := s.loadImage_eq bytes
  rw [hm]

/-- Settles O39: the copy writes the bytes of its range and memory alone, and is not begun where it does not fit. -/
theorem loadCopiesImageOrNothing : Obligations.LoadCopiesImageOrNothing := by
  intro s bytes hinv hs
  have hrun : hostOp (.load bytes) s = .next (s.loadImage bytes) := hostOp_of_running hs _
  refine ⟨fun hfit => ⟨_, hrun, fun k hk => ?inside, fun a ha => ?outside, ?frame⟩, fun hlong => ?tooLong⟩
  case inside => rw [State.peek_loadImage_inside hinv hfit hk, List.getElem?_eq_getElem hk]
  case outside => exact State.peek_loadImage_outside hinv hfit ha
  case frame =>
    obtain ⟨m, hm⟩ := s.loadImage_eq bytes
    rw [hm]
  case tooLong => rw [hrun, s.loadImage_of_too_long hlong]

/-! ### The first step after the load (70 R402, R409) -/

/-- A fetch at the load address reads the first two bytes of an image that fits, under either policy. -/
theorem State.fetch_loadImage {s : State} {hi lo : Byte} {rest : List Byte} (hinv : s.Inv) (hpc : s.pc = 0x200)
    (hfit : 0x200 + (hi :: lo :: rest).length ≤ 4096) :
    (s.loadImage (hi :: lo :: rest)).fetchFault = none ∧ (s.loadImage (hi :: lo :: rest)).fetchBytes = [hi, lo] := by
  have hhi : (s.loadImage (hi :: lo :: rest)).peek 0x200 = hi :=
    State.peek_loadImage_inside hinv hfit (k := 0) (by simp)
  have hlo : (s.loadImage (hi :: lo :: rest)).peek 0x201 = lo :=
    State.peek_loadImage_inside hinv hfit (k := 1) (by simp)
  have hstart : (s.loadImage (hi :: lo :: rest)).pc.toNat = 0x200 := by rw [State.loadImage_pc, hpc]; rfl
  obtain ⟨hfault, hbytes⟩ := fetchIsBigEndian.1 (s.loadImage (hi :: lo :: rest)) (by rw [hstart]; decide)
  rw [hstart, hhi, hlo] at hbytes
  exact ⟨hfault, hbytes⟩

/-- Settles O42: the reset vector is the load address, so the first fetch reads the first two bytes of the image. -/
theorem firstStepRunsFirstLoadedWord : Obligations.FirstStepRunsFirstLoadedWord := by
  intro config draws hi lo rest i hlen hdecode
  have hfit : 0x200 + (hi :: lo :: rest).length ≤ 4096 := by simp only [List.length_cons]; omega
  have hpc : ((State.powerOn config draws).loadImage (hi :: lo :: rest)).pc = 0x200 := State.loadImage_pc _ _
  have hfault : ((State.powerOn config draws).loadImage (hi :: lo :: rest)).fault = none := State.loadImage_fault _ _
  obtain ⟨hfetch, hbytes⟩ := State.fetch_loadImage (State.powerOn_inv config draws) rfl hfit
  have hload : (Event.host (.load (hi :: lo :: rest))).apply (State.powerOn config draws) =
      .next ((State.powerOn config draws).loadImage (hi :: lo :: rest)) := rfl
  refine ⟨_, runEvents_cons_of_next hload [], hpc, ?step⟩
  case step =>
    have hstep := step_of_instr hfault hfetch (hbytes ▸ hdecode)
    rwa [State.advance, hpc] at hstep

/-! ### The end of a run (70 R422) -/

/-- The jump puts `pc` back to where the fetch found it, so the step is a fixed point. -/
theorem State.AtEnd.step_eq {s : State} (h : s.AtEnd) : step s = .next s := by
  obtain ⟨nnn, hs, hfetch, hdecode, htarget⟩ := h
  calc step s
    _ = exec (.jp nnn) s.advance := step_of_instr hs hfetch hdecode
    _ = .next (s.advance.jump s.pc) := by rw [← htarget]; rfl
    _ = .next s := rfl

/-- Settles O14: a step of a fixed point may be repeated any number of times. -/
theorem selfJumpLeavesStateUnchanged : Obligations.SelfJumpLeavesStateUnchanged := by
  intro s k h
  have hrun := runEvents_replicate_append (e := .step) h.step_eq k []
  rwa [List.append_nil] at hrun

end Sys2Proof.Machine
